-- ==== Sys2Proof/Word.lean ====
section
/-! DEFINITION. The widths the spec gives values (00_scope R5 to R7): bytes, the 16-bit length operand, the 32-bit
command word. All values are unsigned. -/

namespace Sys2Proof

/-- One frame position or one data value: `BYTE_BITS` = 8 (R5). -/
abbrev Byte := BitVec 8

/-- The argument operand of a command: `LEN_BITS` = 16 (R5). -/
abbrev Half := BitVec 16

/-- The host's command word: `CMDW_BITS` = 32 (R5). It is one value and has no byte order (R55). -/
abbrev Word := BitVec 32

end Sys2Proof
end

