-- ==== Sys2Proof/Syntax.lean ====
section
/-! DEFINITION. The commands of the block: one constructor of `Instr` for each row of spec/opcode_table.json, with every
operand field of the command word, the ignored ones too, because ACCEPT latches the fields as given (10_state R23). -/

namespace Sys2Proof

/-- The operation of a command, the contents of C_OP (R12, R55). -/
inductive Op where
  | rdb
  | rdn
  | wrb
  | wrn
deriving DecidableEq, Repr

/-- A command as the host presents it: the word CMDW and the sequence DATA (R55). -/
structure Command where
  /-- CMDW. -/
  word : Word
  /-- DATA: read for WRN only. -/
  data : List Byte
deriving DecidableEq, Repr

/-- A decoded command. -/
inductive Instr where
  /-- `RDB a` (R70): ADDR = a, ARG ignored. -/
  | rdb (addr : Byte) (ignored : Half)
  /-- `RDN L, a` (R71): ADDR = a, ARG = L. -/
  | rdn (addr : Byte) (len : Half)
  /-- `WRB a, v` (R80): ADDR = a, ARG[15:8] ignored, ARG[7:0] = v. -/
  | wrb (addr : Byte) (ignored : Byte) (value : Byte)
  /-- `WRN DATA, L` (R81): ADDR ignored, ARG = L, and the data sequence. -/
  | wrn (ignored : Byte) (len : Half) (data : List Byte)
deriving DecidableEq, Repr

end Sys2Proof
end

