-- ==== Sys2Proof/Decode.lean ====
section
/-! DEFINITION. The command encoding (30_encoding R55 to R60): the decoder, total on every word and data sequence, and the
encoder. A word is OP [31:30], reserved [29:24], ADDR [23:16], ARG [15:0]. -/

namespace Sys2Proof

/-- What the decoder answers. -/
inductive Decoded where
  /-- The word names an operation. -/
  | ok (i : Instr)
  /-- One of the bits 29 to 24 is set (R58 item a): no instruction; the block answers BAD_CMD. -/
  | reservedBits
deriving DecidableEq, Repr

/-- OP = CMDW[31:30] (R56). -/
def opField (w : Word) : BitVec 2 := w.extractLsb' 30 2

/-- RSVD = CMDW[29:24] (R55). -/
def rsvdField (w : Word) : BitVec 6 := w.extractLsb' 24 6

/-- ADDR = CMDW[23:16] (R56). -/
def addrField (w : Word) : Byte := w.extractLsb' 16 8

/-- ARG = CMDW[15:0] (R56). -/
def argField (w : Word) : Half := w.extractLsb' 0 16

/-- The low byte of ARG: the value operand of WRB (R56). -/
def argLow (arg : Half) : Byte := arg.extractLsb' 0 8

/-- The high byte of ARG: ignored by WRB (R55). -/
def argHigh (arg : Half) : Byte := arg.extractLsb' 8 8

/-- The operation an OP field names; all four values are defined (R55, R58 item b). -/
def Op.ofCode (b : BitVec 2) : Op :=
  if b = 0#2 then .rdb else if b = 1#2 then .rdn else if b = 2#2 then .wrb else .wrn

/-- The decoder (R56, R58, R60). DATA is an operand of WRN alone (R55; log 13). -/
def decode (c : Command) : Decoded :=
  if rsvdField c.word = 0#6 then
    match Op.ofCode (opField c.word) with
    | .rdb => .ok (.rdb (addrField c.word) (argField c.word))
    | .rdn => .ok (.rdn (addrField c.word) (argField c.word))
    | .wrb => .ok (.wrb (addrField c.word) (argHigh (argField c.word)) (argLow (argField c.word)))
    | .wrn => .ok (.wrn (addrField c.word) (argField c.word) c.data)
  else .reservedBits

/-- The code of an operation in C_OP and in OP (R12, R55). -/
def Op.code : Op → BitVec 2
  | .rdb => 0#2
  | .rdn => 1#2
  | .wrb => 2#2
  | .wrn => 3#2

/-- The operation of an instruction. -/
def Instr.op : Instr → Op
  | .rdb _ _ => .rdb
  | .rdn _ _ => .rdn
  | .wrb _ _ _ => .wrb
  | .wrn _ _ _ => .wrn

/-- The ADDR field of an instruction, as the host gave it. -/
def Instr.addr : Instr → Byte
  | .rdb a _ => a
  | .rdn a _ => a
  | .wrb a _ _ => a
  | .wrn ignored _ _ => ignored

/-- The ARG field of an instruction, as the host gave it. -/
def Instr.arg : Instr → Half
  | .rdb _ ignored => ignored
  | .rdn _ len => len
  | .wrb _ ignored value => ignored ++ value
  | .wrn _ len _ => len

/-- The DATA of an instruction: empty but for WRN (R55). -/
def Instr.data : Instr → List Byte
  | .rdb _ _ => []
  | .rdn _ _ => []
  | .wrb _ _ _ => []
  | .wrn _ _ data => data

/-- The word with the four fields of R55, the reserved one zero. -/
def packWord (op : BitVec 2) (addr : Byte) (arg : Half) : Word := op ++ 0#6 ++ addr ++ arg

/-- The encoder: the command a host presents for an instruction (R55). -/
def encode (i : Instr) : Command := ⟨packWord i.op.code i.addr i.arg, i.data⟩

/-- The command a host presents with the table word `w` of `nbits` bits: the word itself and, for WRN, whose data sequence the
table gives no bits, DATA of as many zero bytes as its length field asks for (log 12). -/
def tableCommand (nbits w : Nat) : Command :=
  let word : Word := BitVec.ofNat 32 (w % 2 ^ nbits)
  ⟨word, if Op.ofCode (opField word) = .wrn then List.replicate (argField word).toNat 0#8 else []⟩

/-- The instruction the decoder reads from a word numbered as spec/opcode_table.json numbers it. -/
def decodeTableWord (nbits w : Nat) : Option Instr :=
  match decode (tableCommand nbits w) with
  | .ok i => some i
  | .reservedBits => none

end Sys2Proof
end

