-- ==== Sys2Proof/Config.lean ====
section
/-! DEFINITION. The parameters of the block (00_scope R5): the constants the source fixes, the two parameters a machine
may be built with (`Params`), and the free values (constants without a body, of which nothing can be proved). -/

namespace Sys2Proof

/-- What the block does with a register address above `ADDR_MAX` (R5, decision D6). -/
inductive AddrPolicy where
  /-- The command is refused with BAD_ADDR: the spec's choice. -/
  | refuse
  /-- No check: the address goes into the header as it is. -/
  | passthrough
deriving DecidableEq, Repr

/-- The parameters that may differ from machine to machine. No step changes them (R22). -/
structure Params where
  /-- `MAX_FRAME`: the largest number of byte positions one frame may have; OPEN (R5, D7). -/
  maxFrame : Nat
  /-- `ADDR_POLICY` (R5, D6). -/
  addrPolicy : AddrPolicy
deriving DecidableEq, Repr

/-- The range R5 gives `MAX_FRAME`. -/
abbrev Params.wf (p : Params) : Prop := 33 ≤ p.maxFrame ∧ p.maxFrame ≤ 65536

namespace Config

/-- `ADDR_MAX`: the largest legal register address (R5). -/
def addrMax : Byte := 0x3F

/-- `READ_FLAG`: header bit 7 (R5, R51). -/
def readFlag : Byte := 0x80

/-- `BURST_FLAG`: header bit 6 (R5, R51). -/
def burstFlag : Byte := 0x40

/-- `PLACEHOLDER`: the byte sent where a byte is only to be clocked in (R5; for RDN by decision D8, log 18). -/
def placeholder : Byte := 0x00

/-- `XFER_SPEED_HZ`: the clock speed of every exchange request (R5, R91). -/
def xferSpeedHz : Nat := 10000

/-- `XFER_WORD_BITS`: the word size of every exchange request (R5, R91). -/
def xferWordBits : Nat := 8

/-- FREE VALUE (log 7): how far this machine's `MAX_FRAME` lies above 33. R5 leaves the value OPEN. -/
opaque frameStoreChoice : Fin 65504

/-- `MAX_FRAME` of the machine `State.reset` describes: some number from 33 to 65536 (R5), nothing more is known. -/
def maxFrame : Nat := 33 + frameStoreChoice.val

/-- FREE VALUE (log 5): the `k`-th byte drawn for `unspecified(n)` (R9, R106, U3). -/
opaque unspecifiedByte : Nat → Byte

/-- FREE VALUE (log 15): whether a confirm step fails when it reads back another value than was set. The source does
not say (R112, N14). -/
opaque readBackMismatchFails : Bool

end Config

end Sys2Proof
end

