-- ==== Sys2Proof/Machine/State.lean ====
section
/-! DEFINITION. The state of the machine, as plain data: the block's registers (10_state R11, R12), the exchange in flight
(R17, R20), the link (60_exceptions R110, R114), the environment's inputs and the record of what the block has
delivered, and the state after reset (10_state R21). The block has no memory and no program counter (R13, R30). -/

namespace Sys2Proof.Machine

/-- PHASE, one bit (R11). -/
inductive Phase where
  /-- No command is in progress and one can be accepted. -/
  | idle
  /-- One exchange request has been handed over and its answer has not come back. -/
  | wait
deriving DecidableEq, Repr

/-- The status of a response (R101). Codes 6 and 7 do not exist. -/
inductive Status where
  | ok
  | transferFailed
  | noLink
  | badAddr
  | badLen
  | badCmd
deriving DecidableEq, Repr

/-- The response to one command: a status and RDATA (R19). -/
structure Response where
  status : Status
  data : List Byte
deriving DecidableEq, Repr

/-- One exchange request: the transmit frame, the shared length and the per-transfer parameters (R17, R90, R91). The receive
frame of the exchange has as many positions as `flen` says. -/
structure Request where
  /-- TXF. -/
  tx : List Byte
  /-- FLEN. -/
  flen : Nat
  /-- The clock speed of this exchange. -/
  speedHz : Nat
  /-- The word size of this exchange. -/
  wordBits : Nat
deriving DecidableEq, Repr

/-- The result of an exchange (R90). -/
inductive XferResult where
  | success
  | transferFailed
deriving DecidableEq, Repr

/-- The transceiver's answer to a request: a result and the receive frame RXF (R90). -/
structure Answer where
  res : XferResult
  rx : List Byte
deriving DecidableEq, Repr

/-- The "underlying OS resource reference" of an open bus connection (R110), for which its two numbers stand (R111; log 14). -/
structure Resource where
  busNumber : Nat
  deviceNumber : Nat
deriving DecidableEq, Repr

/-- The three configurable registers of the system (R110; log 14 for their widths). Every exchange overrides the speed and the word
size (R91), so no step reads one of them. -/
structure LinkConfig where
  /-- Configured clock speed (Hz). -/
  speedHz : Nat
  /-- Configured transfer mode, 0 to 3. -/
  mode : Fin 4
  /-- Configured word size in bits. -/
  wordBits : Nat
deriving DecidableEq, Repr

/-- An open bus connection with all its attributes (R110); the five arguments of an open (R111). -/
structure BusHandle where
  resource : Resource
  config : LinkConfig
deriving DecidableEq, Repr

/-- The parameter whose configuration failed (R112). -/
inductive LinkParam where
  | mode
  | speed
  | wordSize
deriving DecidableEq, Repr

/-- Why an open failed (R102). -/
inductive OpenError where
  | openFailed
  | configurationFailed (which : LinkParam)
deriving DecidableEq, Repr

/-- The state of the link (R114): the three names of the source and the closed condition the spec asks to be tracked. The configured
values are registers of their own (`State.linkConfig`), because they hold a value in every link state. -/
inductive Link where
  | unopened
  | configured (resource : Resource)
  | failed (why : OpenError)
  | closed
deriving DecidableEq, Repr

/-- What the platform answers to one set-then-confirm step of an open (R112). -/
structure ConfigTry (α : Type) where
  /-- The set call succeeded. -/
  setOk : Bool
  /-- What the get call read back; `none` where it failed. -/
  readBack : Option α
  /-- What the register holds after a step that did not both set the wanted value and read it back: any value, the platform's, since
  the spec does not say (R112, N14; log 21). -/
  left : α
deriving DecidableEq, Repr

/-- What the platform answers to an open (R111): the node, then mode, speed and word size in this order. -/
structure OpenTrace where
  nodeOpens : Bool
  mode : ConfigTry (Fin 4)
  speed : ConfigTry Nat
  wordSize : ConfigTry Nat
deriving DecidableEq, Repr

/-- A move of the environment between two commands: the host's, or the link manager's (R10). -/
inductive Input where
  /-- The host presents a command (R25). -/
  | command (c : Command)
  /-- The link manager opens and configures the link (R111). -/
  | openLink (wanted : BusHandle) (trace : OpenTrace)
  /-- The link manager closes the handle (R115). -/
  | closeLink
deriving DecidableEq, Repr

/-- The state of the machine. Plain data. -/
structure State where
  /-- The parameters the block was built with (R5). -/
  params : Params
  /-- PHASE (R11). -/
  phase : Phase
  /-- C_OP, two bits (R12). -/
  cOp : Op
  /-- C_ADDR, eight bits (R12). -/
  cAddr : Byte
  /-- C_ARG, sixteen bits (R12). -/
  cArg : Half
  /-- The exchange the transceiver owns (R17, R20 item a). -/
  inFlight : Option Request
  /-- The link (R114), from which `link_ok` is computed (R16). -/
  link : Link
  /-- The link's configured mode, speed and word size: the only configurable registers of the system (R110, R20 item c). -/
  linkConfig : LinkConfig
  /-- What the host and the link manager will still do, oldest first (log 1). -/
  inputs : List Input
  /-- The answers the transceiver will still give, oldest first; none left means that it withholds its answer (log 2). -/
  answers : List Answer
  /-- The responses delivered so far, oldest first: a record of events (R19, log 4). -/
  responses : List Response
  /-- The exchange requests handed over so far, oldest first: a record of events (R23, log 4). -/
  requests : List Request
  /-- The model's own counter of unspecified bytes drawn (log 5). -/
  draws : Nat
deriving DecidableEq, Repr

/-- Why the machine stops. No instruction raises one of these; each is a broken contract of an agent outside the block. -/
inductive Fault where
  /-- Raised in WAIT when an answer's RXF does not have FLEN positions, which the transceiver's contract excludes (R24, R90;
  log 3). Safe. -/
  | answerBreaksContract
  /-- Raised by a second close of a handle (R115, U2; log 16). Safe. -/
  | doubleClose
  /-- Raised by a close when no open has returned a handle (R112, R115; log 16). Safe. -/
  | closeWithoutHandle
deriving DecidableEq, Repr

/-- What the model gives no meaning. -/
inductive Refusal where
  /-- Raised by an arm of `exec` whose instruction has no meaning yet; no arm raises it now. Safe. -/
  | notModelled (mnemonic : String)
  /-- Raised by an open while a handle is already configured: the spec has one link and one open before its close (R132, R4
  item b; log 16). No instruction raises it. Safe. -/
  | secondHandle
deriving DecidableEq, Repr

/-- The machine right after reset (R21, R130, R131). The values the spec leaves unspecified are named in logs 5 to 8. DESIGN CHOICE:
no move of host or link manager and no answer of the transceiver is to come (`inputs` and `answers` empty, so none would ever be
given); the spec quantifies over both and gives neither an initial value (R22; logs 1 and 2). DESIGN CHOICE: the
link's configured mode, speed and word size hold 0, for their reset values are in no source (R110, R131; log 22). -/
def State.reset : State where
  params := ⟨Config.maxFrame, .refuse⟩
  phase := .idle
  cOp := .rdb
  cAddr := 0#8
  cArg := 0#16
  inFlight := none
  link := .unopened
  linkConfig := ⟨0, 0, 0⟩
  inputs := []
  answers := []
  responses := []
  requests := []
  draws := 0

end Sys2Proof.Machine
end

