-- ==== Sys2Proof/Machine/Operands.lean ====
section
/-! DEFINITION. The two pure functions the source fixes: command to transmit frame (30_encoding R51 to R53) and received frame
to returned bytes (20_memory R36). -/

namespace Sys2Proof.Machine

/-- The header byte of a register address with a read flag and a burst flag: bitwise OR, no masking (R52). -/
def hdr (a : Byte) (r b : Bool) : Byte :=
  a ||| (if r then Config.readFlag else 0#8) ||| (if b then Config.burstFlag else 0#8)

/-- Frame format F-RD1 (R53, R70). -/
def frameRdb (a : Byte) : List Byte := [hdr a true false, Config.placeholder]

/-- Frame format F-RDN (R53, R71). -/
def frameRdn (a : Byte) (len : Half) : List Byte := hdr a true true :: List.replicate len.toNat Config.placeholder

/-- Frame format F-WR1 (R53, R80). -/
def frameWrb (a v : Byte) : List Byte := [hdr a false false, v]

/-- Frame format F-WRN (R53, R81): `DATA[0..L-1]`, verbatim. -/
def frameWrn (len : Half) (data : List Byte) : List Byte := data.take len.toNat

/-- `s[i..j]`: the positions `i` to `j` inclusive, empty when `j < i` (R8). -/
def slice (s : List Byte) (i j : Nat) : List Byte := (s.drop i).take (j + 1 - i)

/-- FLEN by the operation and its length operand; `L + 1` does not wrap (R57). -/
def frameLen (op : Op) (arg : Half) : Nat :=
  match op with
  | .rdb => 2
  | .rdn => arg.toNat + 1
  | .wrb => 2
  | .wrn => arg.toNat

/-- How many bytes a successful operation returns to the host (R24, R106). -/
def returnedLen (op : Op) (arg : Half) : Nat :=
  match op with
  | .rdb => 1
  | .rdn => arg.toNat
  | .wrb => 0
  | .wrn => 0

end Sys2Proof.Machine
end

