-- ==== Sys2Proof/WellFormed.lean ====
section
/-! DEFINITION. The operands the operation rules call legal (R70, R71, R80, R81). Every instruction can be encoded, presented
and executed; an ill-formed one is what the host is told to avoid (70_reset R134, R140), and ACCEPT refuses it. -/

namespace Sys2Proof

/-- A register address is a number in [0, 0x3F] (R18). -/
def legalAddr (a : Byte) : Bool := decide (a ≤ Config.addrMax)

/-- The operands of an instruction are legal for a block with parameters `p`. -/
def Instr.wellFormed (p : Params) : Instr → Bool
  | .rdb a _ => legalAddr a
  | .rdn a len => legalAddr a && decide (len.toNat + 1 ≤ p.maxFrame)
  | .wrb a _ _ => legalAddr a
  | .wrn _ len data => decide (len.toNat = data.length) && decide (len.toNat ≤ p.maxFrame)

end Sys2Proof
end

