-- ==== Sys2Proof/Machine/Flags.lean ====
section
/-! DEFINITION. What plays the part of flags (10_state R14): BUSY and the statuses; `link_ok` (R16); and the checks of ACCEPT in
their order (60_exceptions R104). -/

namespace Sys2Proof.Machine

/-- BUSY, the predicate PHASE = WAIT (R14). -/
def State.busy (s : State) : Bool := decide (s.phase = .wait)

/-- `link_ok`: the link is Configured (R16, R114). -/
def Link.isConfigured : Link → Bool
  | .unopened => false
  | .configured _ => true
  | .failed _ => false
  | .closed => false

/-- The input `link_ok` of the block (R16). -/
def State.linkOk (s : State) : Bool := s.link.isConfigured

/-- The BusHandle that is open, with all its attributes (R110): none but in Configured (R114). -/
def State.handle (s : State) : Option BusHandle :=
  match s.link with
  | .unopened => none
  | .configured resource => some ⟨resource, s.linkConfig⟩
  | .failed _ => none
  | .closed => none

/-- The 3-bit code of a status (R101). -/
def Status.code : Status → BitVec 3
  | .ok => 0#3
  | .transferFailed => 1#3
  | .noLink => 2#3
  | .badAddr => 3#3
  | .badLen => 4#3
  | .badCmd => 5#3

/-- R101's column "Exchange made?". -/
def Status.exchanged : Status → Bool
  | .ok => true
  | .transferFailed => true
  | .noLink => false
  | .badAddr => false
  | .badLen => false
  | .badCmd => false

/-- The status of a completed exchange (R24, R101). -/
def statusOf : XferResult → Status
  | .success => .ok
  | .transferFailed => .transferFailed

/-- Check 2 of R104: `link_ok` false. -/
def checkLink (s : State) : Option Status := if s.linkOk then none else some .noLink

/-- Check 3 of R104: an address above ADDR_MAX under `ADDR_POLICY = refuse`. -/
def checkAddr (p : Params) (a : Byte) : Option Status :=
  match p.addrPolicy with
  | .refuse => if legalAddr a then none else some .badAddr
  | .passthrough => none

/-- Check 4 of R104 for RDN: `arg + 1 > MAX_FRAME`. -/
def checkReadLen (p : Params) (len : Half) : Option Status :=
  if p.maxFrame < len.toNat + 1 then some .badLen else none

/-- Check 4 of R104 for WRN: `arg > MAX_FRAME` or `arg ≠ |DATA|`. -/
def checkWriteLen (p : Params) (len : Half) (data : List Byte) : Option Status :=
  if p.maxFrame < len.toNat ∨ len.toNat ≠ data.length then some .badLen else none

/-- The checks run in the order listed and the first that fails decides (R104). -/
def firstFailure (checks : List (Option Status)) : Option Status := checks.findSome? id

end Sys2Proof.Machine
end

