-- ==== Sys2Proof/Machine/Ops.lean ====
section
/-! DEFINITION. The shared operations of the steps: delivering a response, refusing a command (60_exceptions R105: what this
machine has in place of taking an exception), accepting one (10_state R23), completing one (R24, R106). -/

namespace Sys2Proof.Machine

/-- The three outcomes of a step of this machine. -/
abbrev Result := Host.Outcome State Fault Refusal

/-- `respond(status, data)`: deliver one response to the host (R9, R19). -/
def respond (status : Status) (data : List Byte) (s : State) : State :=
  { s with responses := s.responses ++ [⟨status, data⟩] }

/-- `refuse <Status>`: a response with empty RDATA, no exchange, no other state written (R9, R105). -/
def refuse (status : Status) (s : State) : State := respond status [] s

/-- The exchange request for a transmit frame, with the constants of every transfer (R23 lines 5 and 6, R91). -/
def requestFor (tx : List Byte) : Request := ⟨tx, tx.length, Config.xferSpeedHz, Config.xferWordBits⟩

/-- Lines 3 to 7 of ACCEPT: latch the operands, hand over the request, PHASE to WAIT (R23). -/
def accept (op : Op) (addr : Byte) (arg : Half) (tx : List Byte) (s : State) : State :=
  { s with
    cOp := op
    cAddr := addr
    cArg := arg
    inFlight := some (requestFor tx)
    requests := s.requests ++ [requestFor tx]
    phase := .wait }

/-- ACCEPT of a decoded command: refused with the first failing check, else accepted (R23 line 2, R104, R105). -/
def acceptUnless (failure : Option Status) (accepted : State) (s : State) : Result :=
  match failure with
  | some status => .next (refuse status s)
  | none => .next accepted

/-- The end of COMPLETE: the exchange is over, the response is delivered, PHASE to IDLE (R24). -/
def finish (status : Status) (data : List Byte) (s : State) : State :=
  respond status data { s with phase := .idle, inFlight := none }

/-- `unspecified(n)`: the next `n` free bytes after the first `k` (R9; log 5). -/
def unspecified (k n : Nat) : List Byte := (List.range n).map fun j => Config.unspecifiedByte (k + j)

/-- COMPLETE after a failed exchange whose success would have returned `n` bytes: TRANSFER_FAILED with `n` unspecified bytes
(R106). -/
def finishFailed (n : Nat) (s : State) : State :=
  { finish .transferFailed (unspecified s.draws n) s with draws := s.draws + n }

/-- COMPLETE of an operation that returns `data` on success and `n` bytes on failure (R24). -/
def finishWith (res : XferResult) (data : List Byte) (n : Nat) (s : State) : State :=
  match res with
  | .success => finish .ok data s
  | .transferFailed => finishFailed n s

end Sys2Proof.Machine
end

