-- ==== Sys2Proof/Machine/Read.lean ====
section
/-! DEFINITION. The read operations RDB and RDN (40_read R70, R71): each one's ACCEPT (`exec…`) and its COMPLETE
(`complete…`). -/

namespace Sys2Proof.Machine

/-- ACCEPT of `RDB a` (R70): checks 2 and 3 of R104; FLEN is 2, so no length check. -/
def execRdb (addr : Byte) (ignored : Half) (s : State) : Result :=
  acceptUnless (firstFailure [checkLink s, checkAddr s.params addr]) (accept .rdb addr ignored (frameRdb addr) s) s

/-- COMPLETE of RDB: RXF[1] is returned (R70). -/
def completeRdb (ans : Answer) (s : State) : State := finishWith ans.res (slice ans.rx 1 1) 1 s

/-- ACCEPT of `RDN L, a` (R71): checks 2, 3 and 4 of R104. -/
def execRdn (addr : Byte) (len : Half) (s : State) : Result :=
  acceptUnless (firstFailure [checkLink s, checkAddr s.params addr, checkReadLen s.params len])
    (accept .rdn addr len (frameRdn addr len) s) s

/-- COMPLETE of RDN: RXF[1..L] is returned, with L read from C_ARG (R71). -/
def completeRdn (ans : Answer) (s : State) : State :=
  finishWith ans.res (slice ans.rx 1 s.cArg.toNat) s.cArg.toNat s

end Sys2Proof.Machine
end

