-- ==== Sys2Proof/Machine/Write.lean ====
section
/-! DEFINITION. The write operations WRB and WRN (41_write R80, R81): each one's ACCEPT (`exec…`) and its COMPLETE
(`complete…`). -/

namespace Sys2Proof.Machine

/-- ACCEPT of `WRB a, v` (R80): checks 2 and 3 of R104; C_ARG latches the whole ARG field. -/
def execWrb (addr ignored value : Byte) (s : State) : Result :=
  acceptUnless (firstFailure [checkLink s, checkAddr s.params addr])
    (accept .wrb addr (ignored ++ value) (frameWrb addr value) s) s

/-- COMPLETE of WRB: both received bytes are discarded (R80). -/
def completeWrb (ans : Answer) (s : State) : State := finishWith ans.res [] 0 s

/-- ACCEPT of `WRN DATA, L` (R81): checks 2 and 4 of R104; there is no address operand. -/
def execWrn (ignored : Byte) (len : Half) (data : List Byte) (s : State) : Result :=
  acceptUnless (firstFailure [checkLink s, checkWriteLen s.params len data])
    (accept .wrn ignored len (frameWrn len data) s) s

/-- COMPLETE of WRN: every received position is discarded (R81). -/
def completeWrn (ans : Answer) (s : State) : State := finishWith ans.res [] 0 s

end Sys2Proof.Machine
end

