-- ==== Sys2Proof/Machine/Dispatch.lean ====
section
/-! DEFINITION. ACCEPT of a decoded command, one arm per operation. -/

namespace Sys2Proof.Machine

def exec (i : Instr) (s : State) : Host.Outcome State Fault Refusal :=
  match i with
  -- 40_read
  | .rdb addr ignored => Sys2Proof.Machine.execRdb addr ignored s
  | .rdn addr len => Sys2Proof.Machine.execRdn addr len s
  -- 41_write
  | .wrb addr ignored value => Sys2Proof.Machine.execWrb addr ignored value s
  | .wrn ignored len data => Sys2Proof.Machine.execWrn ignored len data s

end Sys2Proof.Machine
end

