-- ==== Sys2Proof/Machine/Link.lean ====
section
/-! DEFINITION. The link manager's moves (60_exceptions R111 to R116): open with its three set-then-confirm steps, and close.
Neither makes an exchange (R116). -/

namespace Sys2Proof.Machine

/-- One set-then-confirm step succeeds: the set call does, and the get call reads back the wanted value. Whether another value
fails the step is a free constant (R112, N14; log 15). -/
def confirms {α : Type} [DecidableEq α] (t : ConfigTry α) (wanted : α) : Bool :=
  t.setOk && (match t.readBack with
    | none => false
    | some got => decide (got = wanted) || !Config.readBackMismatchFails)

/-- What the register holds after one set-then-confirm step: the wanted value where the set call succeeded and the get call read it
back; else whatever the platform left there (R112; log 21). -/
def settled {α : Type} [DecidableEq α] (t : ConfigTry α) (wanted : α) : α :=
  if t.setOk = true ∧ t.readBack = some wanted then wanted else t.left

/-- The link and its registers after an open: the node, then mode, speed and word size. The first failure aborts it, and a step not
reached writes nothing (R111, R112). -/
def openResult (wanted : BusHandle) (t : OpenTrace) (before : LinkConfig) : Link × LinkConfig :=
  if !t.nodeOpens then (.failed .openFailed, before)
  else if !confirms t.mode wanted.config.mode then
    (.failed (.configurationFailed .mode), { before with mode := settled t.mode wanted.config.mode })
  else if !confirms t.speed wanted.config.speedHz then
    (.failed (.configurationFailed .speed),
      { before with mode := settled t.mode wanted.config.mode, speedHz := settled t.speed wanted.config.speedHz })
  else
    (if confirms t.wordSize wanted.config.wordBits then .configured wanted.resource
      else .failed (.configurationFailed .wordSize),
      { mode := settled t.mode wanted.config.mode
        speedHz := settled t.speed wanted.config.speedHz
        wordBits := settled t.wordSize wanted.config.wordBits })

/-- The state after an open. -/
def opened (wanted : BusHandle) (t : OpenTrace) (s : State) : State :=
  { s with link := (openResult wanted t s.linkConfig).1, linkConfig := (openResult wanted t s.linkConfig).2 }

/-- The link manager opens the link (R111, R114). An open beside a configured handle has no meaning here (log 16). -/
def openLink (wanted : BusHandle) (t : OpenTrace) (s : State) : Result :=
  match s.link with
  | .configured _ => .refused .secondHandle
  | .unopened => .next (opened wanted t s)
  | .failed _ => .next (opened wanted t s)
  | .closed => .next (opened wanted t s)

/-- The link manager closes the handle (R115). A second close is undefined: a fault (U2). DESIGN CHOICE: the
registers of the link keep what they hold (log 22). -/
def closeLink (s : State) : Result :=
  match s.link with
  | .configured _ => .next { s with link := .closed }
  | .unopened => .fault .closeWithoutHandle
  | .failed _ => .fault .closeWithoutHandle
  | .closed => .fault .doubleClose

end Sys2Proof.Machine
end

