-- ==== Sys2Proof/Machine/Sequence.lean ====
section
/-! DEFINITION. What sequences the block (10_state R13): PHASE. In IDLE the next move is the host's or the link manager's; in
WAIT it is the transceiver's, whose answer COMPLETE turns into the response (R24, R25). -/

namespace Sys2Proof.Machine

/-- What the next step is. -/
inductive Turn where
  /-- ACCEPT of a decoded command, in the state from which its presentation has been taken. -/
  | run (i : Instr) (s : State)
  /-- Anything else, with its outcome. -/
  | done (r : Result)
deriving Repr

/-- COMPLETE: the response by the latched operation (R24); the operation's own rule governs. -/
def complete (ans : Answer) (s : State) : State :=
  match s.cOp with
  | .rdb => completeRdb ans s
  | .rdn => completeRdn ans s
  | .wrb => completeWrb ans s
  | .wrn => completeWrn ans s

/-- A command is presented: decoded and run, or refused BAD_CMD, the first check of ACCEPT (R23 line 1, R58, R104). -/
def present (c : Command) (s : State) : Turn :=
  match decode c with
  | .ok i => .run i s
  | .reservedBits => .done (.next (refuse .badCmd s))

/-- The move of host or link manager in IDLE. With none presented the machine stays as it is (R26; log 10). -/
def idleTurn (s : State) : Turn :=
  match s.inputs with
  | [] => .done (.next s)
  | .command c :: rest => present c { s with inputs := rest }
  | .openLink wanted t :: rest => .done (openLink wanted t { s with inputs := rest })
  | .closeLink :: rest => .done (closeLink { s with inputs := rest })

/-- The transceiver's move on the exchange in flight. COMPLETE needs |RXF| = FLEN (R24); an answer of another length breaks the
transceiver's contract (R90; log 3). -/
def answerTurn (req : Request) (s : State) : Result :=
  match s.answers with
  | [] => .next s
  | ans :: rest =>
    if ans.rx.length = req.flen then .next (complete ans { s with answers := rest }) else .fault .answerBreaksContract

/-- The move of the transceiver in WAIT. Without an answer to an outstanding exchange the block stays in WAIT (R138; log 10). -/
def waitTurn (s : State) : Turn :=
  match s.inFlight with
  | none => .done (.next s)
  | some req => .done (answerTurn req s)

/-- Whose move it is, by PHASE (R11, R25). -/
def turn (s : State) : Turn :=
  match s.phase with
  | .idle => idleTurn s
  | .wait => waitTurn s

/-- The host presents the command `c` next, to a block that can accept it: PHASE is IDLE and no exchange is in flight. The link is
left as it is (log 11). -/
def presentNext (c : Command) (s : State) : State :=
  { s with phase := .idle, inFlight := none, inputs := .command c :: s.inputs }

end Sys2Proof.Machine
end

