-- ==== Sys2Proof/Machine/Step.lean ====
section
/-! DEFINITION. One step of the machine: the next move of whoever has it (10_state R10). -/

namespace Sys2Proof.Machine

/-- One step. -/
def step (s : State) : Host.Outcome State Fault Refusal :=
  match turn s with
  | .run i s' => exec i s'
  | .done r => r

/-- `s` with the table word `w` of `nbits` bits presented as the host's next command, so that the very next step runs it. -/
def State.withFetchWord (s : State) (nbits w : Nat) : State := presentNext (tableCommand nbits w) s

end Sys2Proof.Machine
end

