-- ==== Sys2Proof/Machine/Fixture.lean ====
section
/-! DEFINITION. The test fixture DEV of 95_test_vectors part 3: one possible peripheral that answers every exchange and echoes back
what was written. NOT part of the hardware: no step calls it, nothing about it may be assumed of a real peripheral; it serves
the round-trip property (95_test_vectors S5) and the programs P1 to P5 (log 17). -/

namespace Sys2Proof.Machine

/-- DEV: 64 registers and the byte it drives during the header. -/
structure Dev where
  reg : Vector Byte 64
  rx0 : Byte
deriving DecidableEq, Repr

/-- The register that position `k` addresses, under the header `h`: counted upward modulo 64 when the burst flag is set. -/
def devIndex (h : Byte) (k : Nat) : Fin 64 :=
  Fin.ofNat 64 ((h.extractLsb' 0 6).toNat + (if h.getLsbD 6 then k - 1 else 0))

/-- DEV on the positions from `k` on, under the header `h`. -/
def devPositions (h : Byte) : Nat → List Byte → Dev → Dev × List Byte
  | _, [], d => (d, [])
  | k, b :: rest, d =>
    if h.getLsbD 7 then
      let r := devPositions h (k + 1) rest d
      (r.1, d.reg[devIndex h k] :: r.2)
    else
      let r := devPositions h (k + 1) rest { d with reg := d.reg.set (devIndex h k) b }
      (r.1, 0#8 :: r.2)

/-- DEV's exchange: the device after it and the receive frame. -/
def devExchange (d : Dev) (tx : List Byte) : Dev × List Byte :=
  match tx with
  | [] => (d, [])
  | h :: rest =>
    let r := devPositions h 1 rest d
    (r.1, d.rx0 :: r.2)

end Sys2Proof.Machine
end

