-- ==== Sys2Proof/Safety.lean ====
section
/-! DEFINITION. The terms in which claims speak: the invariant of the machine, what is counted along a run, and states that agree but
for one part. -/

namespace Sys2Proof.Machine

/-- A request keeps the DuplexFrame invariant (10_state R17), the frame limit (30_encoding R57) and the constants of every transfer
(42_transfer_primitive R91). -/
abbrev Request.wf (p : Params) (r : Request) : Prop :=
  r.tx.length = r.flen ∧ r.flen ≤ p.maxFrame ∧ r.speedHz = 10000 ∧ r.wordBits = 8

/-- The transmit frame of the latched command (30_encoding R53), so far as the latch fixes it: WRN's bytes are not latched. -/
abbrev frameOfLatch (s : State) (tx : List Byte) : Prop :=
  match s.cOp with
  | .rdb => tx = [s.cAddr ||| 0x80#8, 0x00#8]
  | .rdn => tx = (s.cAddr ||| 0xC0#8) :: List.replicate s.cArg.toNat 0x00#8
  | .wrb => tx = [s.cAddr, s.cArg.extractLsb' 0 8]
  | .wrn => tx.length = s.cArg.toNat

/-- What holds of every state a run from reset reaches. -/
structure Inv (s : State) : Prop where
  /-- `MAX_FRAME` is in its range (R5). -/
  params_wf : s.params.wf
  /-- One exchange is in flight exactly while PHASE is WAIT (R11). -/
  waiting_iff : s.phase = .wait ↔ s.inFlight ≠ none
  /-- The exchange in flight is well formed (R17, R57, R91). -/
  inFlight_wf : ∀ r, s.inFlight = some r → r.wf s.params
  /-- It is the exchange of the latched command (R12, R53). -/
  inFlight_latched : ∀ r, s.inFlight = some r → frameOfLatch s r.tx
  /-- Under `refuse` the latched address of RDB, RDN and WRB is legal (R18, R101). -/
  inFlight_addr : s.inFlight ≠ none → s.params.addrPolicy = .refuse → s.cOp ≠ .wrn → s.cAddr.toNat ≤ 0x3F
  /-- The link is Configured while an exchange is in flight (R95 item a). -/
  inFlight_link : s.inFlight ≠ none → s.linkOk = true
  /-- It is the last request made (R20: at most one exchange exists). -/
  inFlight_last : s.inFlight ≠ none → s.requests.getLast? = s.inFlight
  /-- Every request ever made is well formed (R17, R57, R91). -/
  requests_wf : ∀ r ∈ s.requests, r.wf s.params
  /-- A response to a command without an exchange has an empty RDATA (R105). -/
  refusals_empty : ∀ p ∈ s.responses, p.status.exchanged = false → p.data = []

/-- The entry is a command of the host. -/
def Input.isCommand : Input → Bool
  | .command _ => true
  | .openLink _ _ => false
  | .closeLink => false

/-- The entry is an open of the link manager. -/
def Input.isOpen : Input → Bool
  | .command _ => false
  | .openLink _ _ => true
  | .closeLink => false

/-- How many commands the host will still present. -/
def commandsLeft (s : State) : Nat := s.inputs.countP Input.isCommand

/-- How many commands are in progress: 1 in WAIT, else 0. -/
def inProgress (s : State) : Nat := if s.busy then 1 else 0

/-- How many responses report the end of an exchange. -/
def exchangeResponses (s : State) : Nat := s.responses.countP fun p => p.status.exchanged

/-- A function on states, applied to the next state of an outcome; a stop stays as it is. -/
def mapNext (f : State → State) (r : Result) : Result :=
  match r with
  | .next t => .next (f t)
  | .fault x => .fault x
  | .refused x => .refused x

/-- The same state with another content of the operand latch C_OP, C_ADDR, C_ARG. -/
def withLatch (op : Op) (addr : Byte) (arg : Half) (s : State) : State :=
  { s with cOp := op, cAddr := addr, cArg := arg }

/-- The same state after a longer past: more responses delivered and more exchanges made before. -/
def withPast (ps : List Response) (rs : List Request) (s : State) : State :=
  { s with responses := ps ++ s.responses, requests := rs ++ s.requests }

/-- A set-then-confirm step that surely succeeds: set, and the wanted value read back (60_exceptions R112). -/
abbrev ConfigTry.good {α : Type} (t : ConfigTry α) (wanted : α) : Prop := t.setOk = true ∧ t.readBack = some wanted

/-- A set-then-confirm step that surely fails: the set or the get fails (60_exceptions R112). -/
abbrev ConfigTry.bad {α : Type} (t : ConfigTry α) : Prop := t.setOk = false ∨ t.readBack = none

/-- The state in which the host's command at the head of the inputs has been refused with `status` (R105): one response, and nothing
else but that the command has been taken. -/
def refusedState (status : Status) (rest : List Input) (s : State) : State :=
  { s with inputs := rest, responses := s.responses ++ [⟨status, []⟩] }

end Sys2Proof.Machine
end

