-- ==== Sys2Proof/Certificates/Slice0/Obligations.lean ====
section
/-! DEFINITION. The statements about the machine, for the provers. Each is named after what it says and cites the rules of spec/ it
comes from. An operation is ACCEPT (`exec`) and then COMPLETE (the next `step`); `State.answers` holds what the transceiver will
answer, and every statement is for every such list. -/

open Sys2Proof Sys2Proof.Machine

/-! ### Encoding -/

/-- 30_encoding R55, R56: the word and the data of every instruction, with every operand at every value, decode to that instruction;
no bit of a field is dropped. -/
def Obligations.DecodeOfEncodeIsTheInstruction : Prop :=
  ∀ i : Instr, decode (encode i) = .ok i

/-- 30_encoding R55, R56: a command that decodes is the encoding of what it decodes to, its DATA apart where the operation has
none (that DATA presented with RDB, RDN or WRB is ignored is the model's reading, log 13). -/
def Obligations.EncodeOfDecodeIsTheCommand : Prop :=
  ∀ (c : Command) (i : Instr), decode c = .ok i →
    (encode i).word = c.word ∧ (encode i).data = if c.word.extractLsb' 30 2 = 3#2 then c.data else []

/-- 30_encoding R60: the four values of the top byte name the four operations, with the operand fields of R56; any other has a
reserved bit set and names none. -/
def Obligations.TopByteNamesTheOperation : Prop :=
  ∀ c : Command,
    (c.word &&& 0xFF000000#32 = 0x00000000#32 →
      decode c = .ok (.rdb (c.word.extractLsb' 16 8) (c.word.extractLsb' 0 16))) ∧
    (c.word &&& 0xFF000000#32 = 0x40000000#32 →
      decode c = .ok (.rdn (c.word.extractLsb' 16 8) (c.word.extractLsb' 0 16))) ∧
    (c.word &&& 0xFF000000#32 = 0x80000000#32 →
      decode c = .ok (.wrb (c.word.extractLsb' 16 8) (c.word.extractLsb' 8 8) (c.word.extractLsb' 0 8))) ∧
    (c.word &&& 0xFF000000#32 = 0xC0000000#32 →
      decode c = .ok (.wrn (c.word.extractLsb' 16 8) (c.word.extractLsb' 0 16) c.data)) ∧
    (c.word &&& 0xFF000000#32 ≠ 0x00000000#32 → c.word &&& 0xFF000000#32 ≠ 0x40000000#32 →
      c.word &&& 0xFF000000#32 ≠ 0x80000000#32 → c.word &&& 0xFF000000#32 ≠ 0xC0000000#32 →
      c.word.extractLsb' 24 6 ≠ 0#6 ∧ decode c = .reservedBits)

/-- 95_test_vectors V5, V14, V22, V30, V41: words written out from the encoding decode to the instruction they stand for. -/
def Obligations.WordsWrittenOutDecode : Prop :=
  decode ⟨0x002D0000#32, []⟩ = .ok (.rdb 0x2D#8 0x0000#16) ∧
  decode ⟨0x40320006#32, []⟩ = .ok (.rdn 0x32#8 0x0006#16) ∧
  decode ⟨0x802D0008#32, []⟩ = .ok (.wrb 0x2D#8 0x00#8 0x08#8) ∧
  decode ⟨0xC0000004#32, [0x5E#8, 0x01#8, 0x02#8, 0x03#8]⟩ =
    .ok (.wrn 0x00#8 0x0004#16 [0x5E#8, 0x01#8, 0x02#8, 0x03#8]) ∧
  decode ⟨0x012D0000#32, []⟩ = .reservedBits

/-- 30_encoding R52: the header function, its fields for a legal address, and the address that is not masked. -/
def Obligations.HeaderIsAddressOrFlags : Prop :=
  (∀ (a : Byte) (r b : Bool), hdr a r b = a ||| (if r then 0x80#8 else 0x00#8) ||| (if b then 0x40#8 else 0x00#8)) ∧
  (∀ (a : Byte) (r b : Bool), a.toNat ≤ 0x3F →
    hdr a r b = BitVec.ofBool r ++ BitVec.ofBool b ++ a.extractLsb' 0 6 ∧
    (hdr a r b).getLsbD 7 = r ∧ (hdr a r b).getLsbD 6 = b ∧ ((hdr a r b).extractLsb' 0 6).toNat = a.toNat) ∧
  (∀ a : Byte, hdr a false false = a) ∧
  hdr 0x45#8 true false = 0xC5#8

/-- 30_encoding R52, R53 (and the spec's inference from them, R54): under `ADDR_POLICY = refuse` the first
position of an accepted RDB, RDN or WRB has the flag pair of its operation and the address in the low six bits; a WRN's
frame is the caller's bytes, and only there can the pair (0,1) come from, as with `a | 0x40` for its first byte. -/
def Obligations.FlagPairOfEveryAcceptedFrame : Prop :=
  (∀ (s t : State) (c : Command) (rest : List Input) (r : Request),
    s.phase = .idle → s.params.addrPolicy = .refuse → s.inputs = .command c :: rest →
    step s = .next t → t.phase = .wait → t.inFlight = some r →
    (c.word.extractLsb' 30 2 = 0#2 → ∃ h tl, r.tx = h :: tl ∧
      h.getLsbD 7 = true ∧ h.getLsbD 6 = false ∧ h.extractLsb' 0 6 = c.word.extractLsb' 16 6) ∧
    (c.word.extractLsb' 30 2 = 1#2 → ∃ h tl, r.tx = h :: tl ∧
      h.getLsbD 7 = true ∧ h.getLsbD 6 = true ∧ h.extractLsb' 0 6 = c.word.extractLsb' 16 6) ∧
    (c.word.extractLsb' 30 2 = 2#2 → ∃ h tl, r.tx = h :: tl ∧
      h.getLsbD 7 = false ∧ h.getLsbD 6 = false ∧ h.extractLsb' 0 6 = c.word.extractLsb' 16 6) ∧
    (c.word.extractLsb' 30 2 = 3#2 → r.tx = c.data)) ∧
  (∀ a : Byte, a.toNat ≤ 0x3F → (a ||| 0x40#8).getLsbD 7 = false ∧ (a ||| 0x40#8).getLsbD 6 = true ∧
    ((a ||| 0x40#8).extractLsb' 0 6).toNat = a.toNat)

/-- 30_encoding R57: FLEN by the operation and its length operand, never above MAX_FRAME, and where the lengths 0 and 1 come
from. -/
def Obligations.FrameLengthOfEveryAcceptedCommand : Prop :=
  ∀ (s t : State) (c : Command) (rest : List Input) (r : Request),
    s.params.wf → s.phase = .idle → s.inputs = .command c :: rest →
    step s = .next t → t.phase = .wait → t.inFlight = some r →
    r.tx.length = r.flen ∧ r.flen ≤ s.params.maxFrame ∧
    (c.word.extractLsb' 30 2 = 0#2 → r.flen = 2) ∧
    (c.word.extractLsb' 30 2 = 1#2 → r.flen = (c.word.extractLsb' 0 16).toNat + 1) ∧
    (c.word.extractLsb' 30 2 = 2#2 → r.flen = 2) ∧
    (c.word.extractLsb' 30 2 = 3#2 → r.flen = (c.word.extractLsb' 0 16).toNat) ∧
    (r.flen = 0 → c.word.extractLsb' 30 2 = 3#2 ∧ c.word.extractLsb' 0 16 = 0#16) ∧
    (r.flen = 1 → (c.word.extractLsb' 30 2 = 1#2 ∧ c.word.extractLsb' 0 16 = 0#16) ∨
      (c.word.extractLsb' 30 2 = 3#2 ∧ c.word.extractLsb' 0 16 = 1#16))

/-! ### The four operations -/

/-- 40_read R70, with 10_state R23, R24 and 60_exceptions R106: RDB, when the link is Configured and the address is legal or not
checked, hands over `[a | 0x80, 0x00]` and waits, changing nothing else; a successful answer returns exactly RXF[1], a failed
one an unspecified byte, and nothing else changes. -/
def Obligations.RdbReadsOneByte : Prop :=
  ∀ (s : State) (a : Byte) (ignored : Half),
    s.phase = .idle → s.linkOk = true → (s.params.addrPolicy = .refuse → a.toNat ≤ 0x3F) →
    ∃ t, exec (.rdb a ignored) s = .next t ∧
      t = { s with
        cOp := .rdb, cAddr := a, cArg := ignored, phase := .wait
        inFlight := some ⟨[a ||| 0x80#8, 0x00#8], 2, 10000, 8⟩
        requests := s.requests ++ [⟨[a ||| 0x80#8, 0x00#8], 2, 10000, 8⟩] } ∧
      ∀ (b0 b1 : Byte) (later : List Answer),
        (s.answers = ⟨.success, [b0, b1]⟩ :: later →
          step t = .next { t with
            phase := .idle, inFlight := none, answers := later
            responses := s.responses ++ [⟨.ok, [b1]⟩] }) ∧
        (s.answers = ⟨.transferFailed, [b0, b1]⟩ :: later →
          ∃ u, step t = .next { t with
            phase := .idle, inFlight := none, answers := later
            responses := s.responses ++ [⟨.transferFailed, [u]⟩], draws := s.draws + 1 })

/-- 40_read R71, with 10_state R23, R24 and 60_exceptions R106: RDN hands over `a | 0xC0` and `L` placeholders; a successful answer
returns the `L` received bytes after the first, in order, a failed one `L` unspecified bytes. -/
def Obligations.RdnReadsABurst : Prop :=
  ∀ (s : State) (a : Byte) (len : Half),
    s.phase = .idle → s.linkOk = true → (s.params.addrPolicy = .refuse → a.toNat ≤ 0x3F) →
    len.toNat + 1 ≤ s.params.maxFrame →
    ∃ t, exec (.rdn a len) s = .next t ∧
      t = { s with
        cOp := .rdn, cAddr := a, cArg := len, phase := .wait
        inFlight := some ⟨(a ||| 0xC0#8) :: List.replicate len.toNat 0x00#8, len.toNat + 1, 10000, 8⟩
        requests := s.requests ++
          [⟨(a ||| 0xC0#8) :: List.replicate len.toNat 0x00#8, len.toNat + 1, 10000, 8⟩] } ∧
      ∀ (b0 : Byte) (got : List Byte) (later : List Answer), got.length = len.toNat →
        (s.answers = ⟨.success, b0 :: got⟩ :: later →
          step t = .next { t with
            phase := .idle, inFlight := none, answers := later
            responses := s.responses ++ [⟨.ok, got⟩] }) ∧
        (s.answers = ⟨.transferFailed, b0 :: got⟩ :: later →
          ∃ us : List Byte, us.length = len.toNat ∧
            step t = .next { t with
              phase := .idle, inFlight := none, answers := later
              responses := s.responses ++ [⟨.transferFailed, us⟩], draws := s.draws + len.toNat })

/-- 41_write R80, with 10_state R23, R24 and 60_exceptions R106: WRB hands over exactly `[a, v]`; both received bytes are discarded,
and the status is the exchange's. -/
def Obligations.WrbWritesOneByte : Prop :=
  ∀ (s : State) (a ignored v : Byte),
    s.phase = .idle → s.linkOk = true → (s.params.addrPolicy = .refuse → a.toNat ≤ 0x3F) →
    ∃ t, exec (.wrb a ignored v) s = .next t ∧
      t = { s with
        cOp := .wrb, cAddr := a, cArg := ignored ++ v, phase := .wait
        inFlight := some ⟨[a, v], 2, 10000, 8⟩
        requests := s.requests ++ [⟨[a, v], 2, 10000, 8⟩] } ∧
      ∀ (b0 b1 : Byte) (later : List Answer),
        (s.answers = ⟨.success, [b0, b1]⟩ :: later →
          step t = .next { t with
            phase := .idle, inFlight := none, answers := later
            responses := s.responses ++ [⟨.ok, []⟩] }) ∧
        (s.answers = ⟨.transferFailed, [b0, b1]⟩ :: later →
          step t = .next { t with
            phase := .idle, inFlight := none, answers := later
            responses := s.responses ++ [⟨.transferFailed, []⟩] })

/-- 41_write R81, with 10_state R23, R24 and 60_exceptions R106: WRN hands over the caller's bytes verbatim, whatever they are, an
empty sequence too; every received position is discarded, and the status is the exchange's. -/
def Obligations.WrnSendsTheCallersBytes : Prop :=
  ∀ (s : State) (ignored : Byte) (len : Half) (data : List Byte),
    s.phase = .idle → s.linkOk = true → len.toNat = data.length → len.toNat ≤ s.params.maxFrame →
    ∃ t, exec (.wrn ignored len data) s = .next t ∧
      t = { s with
        cOp := .wrn, cAddr := ignored, cArg := len, phase := .wait
        inFlight := some ⟨data, data.length, 10000, 8⟩
        requests := s.requests ++ [⟨data, data.length, 10000, 8⟩] } ∧
      ∀ (rx : List Byte) (later : List Answer), rx.length = data.length →
        (s.answers = ⟨.success, rx⟩ :: later →
          step t = .next { t with
            phase := .idle, inFlight := none, answers := later
            responses := s.responses ++ [⟨.ok, []⟩] }) ∧
        (s.answers = ⟨.transferFailed, rx⟩ :: later →
          step t = .next { t with
            phase := .idle, inFlight := none, answers := later
            responses := s.responses ++ [⟨.transferFailed, []⟩] })

/-! ### ACCEPT: the step, the checks, the refusals -/

/-- 10_state R10, R23: with a command presented in IDLE that decodes, the step is `exec` of the instruction, in the state from which
the presentation has been taken. -/
def Obligations.StepRunsTheDecodedCommand : Prop :=
  ∀ (s : State) (c : Command) (rest : List Input) (i : Instr),
    s.phase = .idle → s.inputs = .command c :: rest → decode c = .ok i →
    step s = exec i { s with inputs := rest }

/-- 10_state R23: what an accepted command writes. The latch holds the three fields of the word, one request is made, PHASE is WAIT,
and nothing else has changed but that the presentation has been taken. -/
def Obligations.AcceptLatchesTheFieldsOfTheWord : Prop :=
  ∀ (s t : State) (c : Command) (rest : List Input),
    s.phase = .idle → s.inputs = .command c :: rest → step s = .next t → t.phase = .wait →
    t.cOp.code = c.word.extractLsb' 30 2 ∧ t.cAddr = c.word.extractLsb' 16 8 ∧ t.cArg = c.word.extractLsb' 0 16 ∧
    ∃ r : Request, r.flen = r.tx.length ∧ r.speedHz = 10000 ∧ r.wordBits = 8 ∧
      frameOfLatch t r.tx ∧ (t.cOp = .wrn → r.tx = c.data) ∧
      t = { s with
        phase := .wait, inputs := rest, cOp := t.cOp, cAddr := t.cAddr, cArg := t.cArg
        inFlight := some r, requests := s.requests ++ [r] }

/-- 60_exceptions R104: the checks run in order and the first that fails decides the status; a command that passes them all is
accepted. -/
def Obligations.ChecksRunInOrder : Prop :=
  ∀ (s : State) (c : Command) (rest : List Input), s.phase = .idle → s.inputs = .command c :: rest →
    (c.word.extractLsb' 24 6 ≠ 0#6 → step s = .next (refusedState .badCmd rest s)) ∧
    (c.word.extractLsb' 24 6 = 0#6 →
      (s.linkOk = false → step s = .next (refusedState .noLink rest s)) ∧
      (s.linkOk = true →
        (c.word.extractLsb' 30 2 ≠ 3#2 ∧ s.params.addrPolicy = .refuse ∧ 0x3F < (c.word.extractLsb' 16 8).toNat →
          step s = .next (refusedState .badAddr rest s)) ∧
        (¬(c.word.extractLsb' 30 2 ≠ 3#2 ∧ s.params.addrPolicy = .refuse ∧ 0x3F < (c.word.extractLsb' 16 8).toNat) →
          ((c.word.extractLsb' 30 2 = 1#2 ∧ s.params.maxFrame < (c.word.extractLsb' 0 16).toNat + 1) ∨
              (c.word.extractLsb' 30 2 = 3#2 ∧ (s.params.maxFrame < (c.word.extractLsb' 0 16).toNat ∨
                (c.word.extractLsb' 0 16).toNat ≠ c.data.length)) →
            step s = .next (refusedState .badLen rest s)) ∧
          (¬((c.word.extractLsb' 30 2 = 1#2 ∧ s.params.maxFrame < (c.word.extractLsb' 0 16).toNat + 1) ∨
              (c.word.extractLsb' 30 2 = 3#2 ∧ (s.params.maxFrame < (c.word.extractLsb' 0 16).toNat ∨
                (c.word.extractLsb' 0 16).toNat ≠ c.data.length))) →
            ∃ t, step s = .next t ∧ t.phase = .wait ∧ t.responses = s.responses ∧
              t.requests.length = s.requests.length + 1))))

/-- 60_exceptions R105: a refused command delivers its status with an empty RDATA, makes no request and writes no state, and the next
step is the same as if it had never been presented: both are the step of one state, after two pasts that differ only in the
response. -/
def Obligations.RefusalLeavesNoTrace : Prop :=
  ∀ (s t : State) (c : Command) (rest : List Input),
    s.phase = .idle → s.inputs = .command c :: rest → step s = .next t → t.phase = .idle →
    ∃ status : Status, status.exchanged = false ∧ t = refusedState status rest s ∧
      step t = mapNext (withPast (s.responses ++ [⟨status, []⟩]) s.requests)
        (step { s with inputs := rest, responses := [], requests := [] }) ∧
      step { s with inputs := rest } = mapNext (withPast s.responses s.requests)
        (step { s with inputs := rest, responses := [], requests := [] })

/-- 60_exceptions R101: the codes of the six statuses, which differ; the codes 6 and 7 are never produced. -/
def Obligations.StatusCodesOfTheTable : Prop :=
  Status.ok.code = 0#3 ∧ Status.transferFailed.code = 1#3 ∧ Status.noLink.code = 2#3 ∧
  Status.badAddr.code = 3#3 ∧ Status.badLen.code = 4#3 ∧ Status.badCmd.code = 5#3 ∧
  (∀ x y : Status, x.code = y.code → x = y) ∧ ∀ x : Status, x.code ≠ 6#3 ∧ x.code ≠ 7#3

/-- 30_encoding R56: an ignored field may hold any bits. The command's outcome differs in nothing but the latched field itself,
and COMPLETE does not read that field. -/
def Obligations.IgnoredFieldsHaveNoEffect : Prop :=
  (∀ (s : State) (a : Byte) (x y : Half),
    mapNext (fun t => { t with cArg := 0#16 }) (exec (.rdb a x) s) =
      mapNext (fun t => { t with cArg := 0#16 }) (exec (.rdb a y) s)) ∧
  (∀ (s : State) (a x y v : Byte),
    mapNext (fun t => { t with cArg := 0#16 }) (exec (.wrb a x v) s) =
      mapNext (fun t => { t with cArg := 0#16 }) (exec (.wrb a y v) s)) ∧
  (∀ (s : State) (x y : Byte) (len : Half) (data : List Byte),
    mapNext (fun t => { t with cAddr := 0#8 }) (exec (.wrn x len data) s) =
      mapNext (fun t => { t with cAddr := 0#8 }) (exec (.wrn y len data) s)) ∧
  (∀ (s : State) (g : Half), s.phase = .wait → s.cOp ≠ .rdn →
    step { s with cArg := g } = mapNext (fun t => { t with cArg := g }) (step s)) ∧
  (∀ (s : State) (a : Byte), s.phase = .wait →
    step { s with cAddr := a } = mapNext (fun t => { t with cAddr := a }) (step s))

/-- 10_state R21: no rule reads the operand latch before ACCEPT writes it. In IDLE another content of the latch changes nothing but
itself, and an accepted command leaves no trace of it. -/
def Obligations.LatchIsNotReadWhileIdle : Prop :=
  ∀ (s : State) (op : Op) (a : Byte) (g : Half), s.phase = .idle →
    step (withLatch op a g s) = mapNext (fun t => if t.phase = .wait then t else withLatch op a g t) (step s)

/-- 10_state R14, 60_exceptions R107: no operation reads anything an earlier operation left in the way of statuses or exchanges;
after any past the step is the same. -/
def Obligations.PastIsNeverRead : Prop :=
  ∀ (s : State) (ps : List Response) (rs : List Request),
    step (withPast ps rs s) = mapNext (withPast ps rs) (step s)

/-! ### COMPLETE -/

/-- 10_state R24: the response by the latched operation and the result, and nothing else changes but the model's own records: the
answer has been taken (log 2), and the counter of unspecified bytes has moved (log 5). `Inv` rules out an exchange of another length
than the latched command's. -/
def Obligations.CompleteDeliversTheTable : Prop :=
  ∀ (s : State) (req : Request) (rx : List Byte) (later : List Answer),
    Inv s → s.phase = .wait → s.inFlight = some req → rx.length = req.flen →
    (s.answers = ⟨.success, rx⟩ :: later →
      ∃ d : List Byte,
        d.length = (match s.cOp with | .rdb => 1 | .rdn => s.cArg.toNat | .wrb => 0 | .wrn => 0) ∧
        (∀ k, k < d.length → d[k]? = rx[k + 1]?) ∧
        step s = .next { s with
          phase := .idle, inFlight := none, answers := later, responses := s.responses ++ [⟨.ok, d⟩] }) ∧
    (s.answers = ⟨.transferFailed, rx⟩ :: later →
      ∃ d : List Byte,
        d.length = (match s.cOp with | .rdb => 1 | .rdn => s.cArg.toNat | .wrb => 0 | .wrn => 0) ∧
        step s = .next { s with
          phase := .idle, inFlight := none, answers := later
          responses := s.responses ++ [⟨.transferFailed, d⟩], draws := s.draws + d.length })

/-- 60_exceptions R106, R107: after a failed exchange the machine is as after a successful one, the response and the model's counter
of free bytes apart; nothing is retried and no state records the failure. -/
def Obligations.FailureLeavesWhatSuccessLeaves : Prop :=
  ∀ (s : State) (req : Request) (rx rx' : List Byte) (later : List Answer),
    s.phase = .wait → s.inFlight = some req → rx.length = req.flen → rx'.length = req.flen →
    ∃ (t : State) (ok failed : Response),
      step { s with answers := ⟨.success, rx⟩ :: later } = .next t ∧
      t.responses = s.responses ++ [ok] ∧ ok.status = .ok ∧ failed.status = .transferFailed ∧
      t.phase = .idle ∧ t.requests = s.requests ∧
      step { s with answers := ⟨.transferFailed, rx'⟩ :: later } =
        .next { t with responses := s.responses ++ [failed], draws := s.draws + failed.data.length }

/-- 10_state R24 (and the spec's inference from the operations' rules, 20_memory R36): the received position 0 is never
returned, and a write returns no received byte: an answer that differs only there gives the same step. -/
def Obligations.DroppedPositionsHaveNoEffect : Prop :=
  (∀ (s : State) (req : Request) (res : XferResult) (b b' : Byte) (rx : List Byte) (later : List Answer),
    s.phase = .wait → s.inFlight = some req →
    step { s with answers := ⟨res, b :: rx⟩ :: later } = step { s with answers := ⟨res, b' :: rx⟩ :: later }) ∧
  (∀ (s : State) (req : Request) (res : XferResult) (rx rx' : List Byte) (later : List Answer),
    s.phase = .wait → s.inFlight = some req → (s.cOp = .wrb ∨ s.cOp = .wrn) → rx.length = rx'.length →
    step { s with answers := ⟨res, rx⟩ :: later } = step { s with answers := ⟨res, rx'⟩ :: later })

/-- 70_reset R138: if the transceiver never answers, the block stays in WAIT, delivers nothing and accepts nothing, however long it
runs and whatever the host has presented (that the machine steps to itself meanwhile is the model's form, log 10). -/
def Obligations.WithheldAnswerHangsForEver : Prop :=
  ∀ (k : Nat) (s : State), s.phase = .wait → s.answers = [] → Host.Core.run Sys2Proof.core k s = .next s

/-- 10_state R25: host and link manager have no move in WAIT. What they would do has no effect on the step and is still there after
it, and the link stays as it is (that their moves wait in a list is the model's form, log 1). -/
def Obligations.HostHasNoMoveWhileWaiting : Prop :=
  ∀ (s : State), s.phase = .wait →
    (∀ l : List Input, step { s with inputs := l } = mapNext (fun t => { t with inputs := l }) (step s)) ∧
    ∀ t, step s = .next t →
      t.inputs = s.inputs ∧ t.link = s.link ∧ t.linkConfig = s.linkConfig ∧ t.requests = s.requests

/-- 10_state R23, R24 (and the spec's inference from them, R26): in IDLE with no command presented the run has ended: nothing happens
any more (that the machine steps to itself is the model's form, log 10). -/
def Obligations.IdleWithNothingPresentedIsFinal : Prop :=
  ∀ (k : Nat) (s : State), s.phase = .idle → s.inputs = [] → Host.Core.run Sys2Proof.core k s = .next s

/-! ### Whole runs -/

/-- 60_exceptions R100, R101: along every run each command taken ends in exactly one response, at once or, for the one in progress,
later. -/
def Obligations.EveryCommandGetsOneResponse : Prop :=
  ∀ (k : Nat) (s t : State), Host.Core.run Sys2Proof.core k s = .next t →
    commandsLeft t + t.responses.length + inProgress t = commandsLeft s + s.responses.length + inProgress s

/-- 20_memory R38, 60_exceptions R101: along every run exactly one exchange is requested for each response that reports an exchange
and for the command in progress, and none for a refusal, an open or a close. -/
def Obligations.EveryAcceptedCommandMakesOneExchange : Prop :=
  ∀ (k : Nat) (s t : State), Host.Core.run Sys2Proof.core k s = .next t →
    t.requests.length + exchangeResponses s + inProgress s = s.requests.length + exchangeResponses t + inProgress t

/-- 10_state R19, R37: a response delivered and an exchange requested stay as they are; a run only adds to them
(that both are recorded is the model's form, log 4). -/
def Obligations.RecordsOnlyGrow : Prop :=
  ∀ (k : Nat) (s t : State), Host.Core.run Sys2Proof.core k s = .next t →
    s.responses <+: t.responses ∧ s.requests <+: t.requests

/-- 42_transfer_primitive R91: every request carries 10000 Hz and 8 bits, and what was configured at open time has no influence on
any step. -/
def Obligations.RequestsCarryTheConstants : Prop :=
  (∀ (s t : State), step s = .next t → ∀ r ∈ t.requests, r ∈ s.requests ∨ (r.speedHz = 10000 ∧ r.wordBits = 8)) ∧
  (∀ (s : State) (h h' : Resource) (c : LinkConfig), s.link = .configured h →
    step { s with link := .configured h', linkConfig := c } =
      mapNext (fun t => { t with link := if t.link = .configured h then .configured h' else t.link, linkConfig := c }) (step s))

/-- 10_state R21: what reset leaves (the values of C_OP, C_ADDR and C_ARG, which the rule leaves unspecified, are not stated). -/
def Obligations.ResetLeavesAnIdleBlock : Prop :=
  State.reset.phase = .idle ∧ State.reset.inFlight = none ∧ State.reset.responses = [] ∧ State.reset.requests = [] ∧
  State.reset.link = .unopened ∧ State.reset.linkOk = false ∧
  33 ≤ State.reset.params.maxFrame ∧ State.reset.params.maxFrame ≤ 65536 ∧ State.reset.params.addrPolicy = .refuse

/-- The state after reset meets the invariant. -/
def Obligations.ResetMeetsTheInvariant : Prop := Inv State.reset

/-- 10_state R11, R17, R20, 42_transfer_primitive R95: every step keeps the invariant: one exchange in flight exactly in WAIT, well
formed, of the latched command and over a configured link; every request ever made well formed. -/
def Obligations.EveryStepKeepsTheInvariant : Prop :=
  ∀ s t : State, Inv s → step s = .next t → Inv t

/-- The machine stops only where an agent outside the block breaks its contract (logs 3 and 16, the model's choices;
93_implementation_defined U2 for the second close), and no instruction is without a meaning. -/
def Obligations.StopsAreBrokenContractsOnly : Prop :=
  ∀ s : State,
    (step s = .fault .answerBreaksContract ↔
      s.phase = .wait ∧ ∃ req ans later, s.inFlight = some req ∧ s.answers = ans :: later ∧ ans.rx.length ≠ req.flen) ∧
    (step s = .fault .doubleClose ↔ s.phase = .idle ∧ s.link = .closed ∧ ∃ rest, s.inputs = .closeLink :: rest) ∧
    (step s = .fault .closeWithoutHandle ↔
      s.phase = .idle ∧ (s.link = .unopened ∨ ∃ e, s.link = .failed e) ∧ ∃ rest, s.inputs = .closeLink :: rest) ∧
    (step s = .refused .secondHandle ↔
      s.phase = .idle ∧ (∃ h, s.link = .configured h) ∧ ∃ wanted tr rest, s.inputs = .openLink wanted tr :: rest) ∧
    ∀ x : Refusal, step s = .refused x → x = .secondHandle

/-! ### The link -/

/-- 60_exceptions R111, R112, R113: an open sets and confirms mode, speed and word size in this order; the first failure decides, and
the handle is either fully configured or not usable. A register whose step set and read back the wanted value holds it, one whose
step failed holds any value (log 21), one whose step was not reached what it held. Nothing but the link and its registers changes. -/
def Obligations.OpenConfiguresAllOrFails : Prop :=
  ∀ (s : State) (wanted : BusHandle) (tr : OpenTrace) (rest : List Input),
    s.phase = .idle → s.linkOk = false → s.inputs = .openLink wanted tr :: rest →
    ∃ l c, step s = .next { s with inputs := rest, link := l, linkConfig := c } ∧
      (l = .configured wanted.resource ∨ ∃ e, l = .failed e) ∧
      (tr.nodeOpens = false → l = .failed .openFailed ∧ c = s.linkConfig) ∧
      (tr.nodeOpens = true → tr.mode.bad →
        l = .failed (.configurationFailed .mode) ∧ c = { s.linkConfig with mode := tr.mode.left }) ∧
      (tr.nodeOpens = true → tr.mode.good wanted.config.mode → tr.speed.bad →
        l = .failed (.configurationFailed .speed) ∧
        c = { s.linkConfig with mode := wanted.config.mode, speedHz := tr.speed.left }) ∧
      (tr.nodeOpens = true → tr.mode.good wanted.config.mode → tr.speed.good wanted.config.speedHz → tr.wordSize.bad →
        l = .failed (.configurationFailed .wordSize) ∧
        c = { mode := wanted.config.mode, speedHz := wanted.config.speedHz, wordBits := tr.wordSize.left }) ∧
      (tr.nodeOpens = true → tr.mode.good wanted.config.mode → tr.speed.good wanted.config.speedHz →
        tr.wordSize.good wanted.config.wordBits →
        l = .configured wanted.resource ∧ c = wanted.config ∧
        State.handle { s with inputs := rest, link := l, linkConfig := c } = some wanted)

/-- 60_exceptions R116: an open followed at once by a close succeeds and performs no transfer; and if the configuration step for
speed fails, the open reports it and no transfer is made while no other open is. -/
def Obligations.OpenAndCloseMakeNoExchange : Prop :=
  (∀ (s : State) (wanted : BusHandle) (tr : OpenTrace) (rest : List Input),
    s.phase = .idle → s.linkOk = false → s.inputs = .openLink wanted tr :: .closeLink :: rest →
    tr.nodeOpens = true → tr.mode.good wanted.config.mode → tr.speed.good wanted.config.speedHz →
    tr.wordSize.good wanted.config.wordBits →
    ∃ c, Host.Core.run Sys2Proof.core 2 s = .next { s with inputs := rest, link := .closed, linkConfig := c }) ∧
  (∀ (s : State) (wanted : BusHandle) (tr : OpenTrace) (rest : List Input),
    s.phase = .idle → s.linkOk = false → s.inputs = .openLink wanted tr :: rest →
    tr.nodeOpens = true → tr.mode.good wanted.config.mode → tr.speed.bad →
    (∃ c, step s = .next { s with inputs := rest, link := .failed (.configurationFailed .speed), linkConfig := c }) ∧
    (rest.any Input.isOpen = false → ∀ (k : Nat) (t : State), Host.Core.run Sys2Proof.core (k + 1) s = .next t →
      t.requests = s.requests))

/-- 60_exceptions R114, R115: a close makes `link_ok` false and changes nothing else; a second close has no successor state. (That
the link's registers keep what they hold is the model's choice, log 22.) -/
def Obligations.CloseEndsTheLink : Prop :=
  ∀ (s : State) (handle : Resource) (rest : List Input),
    s.phase = .idle → s.link = .configured handle → s.inputs = .closeLink :: rest →
    ∃ t, step s = .next t ∧ t = { s with inputs := rest, link := .closed } ∧ t.linkOk = false ∧ t.handle = none ∧
      ((∃ more, rest = .closeLink :: more) → step t = .fault .doubleClose)

/-- 10_state R16, 60_exceptions R101, 70_reset R131: while the link is not Configured and is not opened, every command is refused, no
exchange is made and PHASE stays IDLE, however long the run. -/
def Obligations.NoExchangeWithoutAnOpen : Prop :=
  ∀ (k : Nat) (s t : State), s.phase = .idle → s.linkOk = false → s.inputs.any Input.isOpen = false →
    Host.Core.run Sys2Proof.core k s = .next t →
    t.requests = s.requests ∧ t.phase = .idle ∧ t.linkOk = false ∧
    ∃ ps, t.responses = s.responses ++ ps ∧ ∀ p ∈ ps, (p.status = .noLink ∨ p.status = .badCmd) ∧ p.data = []

/-! ### With the fixture DEV of 95_test_vectors (one possible peripheral, not the hardware's) -/

/-- 95_test_vectors S5, P1: over a device that echoes back what was last written, WRB and then RDB of the same address return the
value written, for all addresses and values. -/
def Obligations.EchoDeviceRoundTrip : Prop :=
  ∀ (s : State) (d : Dev) (a v : Byte) (rest : List Input) (later : List Answer),
    s.phase = .idle → s.linkOk = true → a.toNat ≤ 0x3F →
    s.inputs = .command (encode (.wrb a 0x00#8 v)) :: .command (encode (.rdb a 0x0000#16)) :: rest →
    s.answers = ⟨.success, (devExchange d [a, v]).2⟩ ::
      ⟨.success, (devExchange (devExchange d [a, v]).1 [a ||| 0x80#8, 0x00#8]).2⟩ :: later →
    ∃ t, Host.Core.run Sys2Proof.core 4 s = .next t ∧ t.phase = .idle ∧
      t.requests = s.requests ++ [⟨[a, v], 2, 10000, 8⟩, ⟨[a ||| 0x80#8, 0x00#8], 2, 10000, 8⟩] ∧
      t.responses = s.responses ++ [⟨.ok, []⟩, ⟨.ok, [v]⟩]

/-- 30_encoding R59 (WRBURST), 95_test_vectors P2: over the same device a burst write built by the caller and a burst read of as many
bytes from the same address return the bytes written, for every burst of at most 64 bytes. -/
def Obligations.EchoDeviceBurstRoundTrip : Prop :=
  ∀ (s : State) (d : Dev) (a : Byte) (data : List Byte) (n : Half) (rest : List Input) (later : List Answer),
    s.phase = .idle → s.linkOk = true → a.toNat ≤ 0x3F → n.toNat = data.length → data.length ≤ 64 →
    data.length + 1 ≤ s.params.maxFrame →
    s.inputs = .command (encode (.wrn 0x00#8 (n + 1#16) ((a ||| 0x40#8) :: data))) ::
      .command (encode (.rdn a n)) :: rest →
    s.answers = ⟨.success, (devExchange d ((a ||| 0x40#8) :: data)).2⟩ ::
      ⟨.success, (devExchange (devExchange d ((a ||| 0x40#8) :: data)).1
        ((a ||| 0xC0#8) :: List.replicate data.length 0x00#8)).2⟩ :: later →
    ∃ t, Host.Core.run Sys2Proof.core 4 s = .next t ∧ t.phase = .idle ∧
      t.requests = s.requests ++ [⟨(a ||| 0x40#8) :: data, data.length + 1, 10000, 8⟩,
        ⟨(a ||| 0xC0#8) :: List.replicate data.length 0x00#8, data.length + 1, 10000, 8⟩] ∧
      t.responses = s.responses ++ [⟨.ok, []⟩, ⟨.ok, data⟩]

/-! ### The registers of the link -/

/-- 60_exceptions R110, R111: the three configurable registers change only where the link manager opens the link and the
node opens; no command, no answer and no close writes one (for a close, the model's choice, log 22). -/
def Obligations.OnlyAnOpenWritesTheLinkRegisters : Prop :=
  ∀ s t : State, step s = .next t → t.linkConfig ≠ s.linkConfig →
    s.phase = .idle ∧ s.linkOk = false ∧ t.responses = s.responses ∧ t.requests = s.requests ∧
    ∃ wanted tr rest, s.inputs = .openLink wanted tr :: rest ∧ tr.nodeOpens = true

/-- 60_exceptions R110: none of the three configurable registers affects any step but through itself; so nothing but the registers
depends on their reset values (log 22). -/
def Obligations.LinkRegistersAreNeverRead : Prop :=
  ∀ (k : Nat) (s : State) (c : LinkConfig),
    mapNext (fun t => { t with linkConfig := c }) (Host.Core.run Sys2Proof.core k { s with linkConfig := c }) =
      mapNext (fun t => { t with linkConfig := c }) (Host.Core.run Sys2Proof.core k s)
end

