-- ==== Sys2Proof/Laws/Encoding.lean ====
section
/-! SUPPORT. The fields of a packed word, and of a word that is split and packed again. -/

namespace Sys2Proof

@[simp] theorem opField_packWord (o : BitVec 2) (a : Byte) (g : Half) : opField (packWord o a g) = o := by
  ext i hi
  simp only [opField, packWord, BitVec.getElem_extractLsb', BitVec.getLsbD_append]
  have : ¬ 30 + i < 16 := by omega
  have : ¬ 30 + i - 16 < 8 := by omega
  have : ¬ 30 + i - 16 - 8 < 6 := by omega
  have e : 30 + i - 16 - 8 - 6 = i := by omega
  simp [*]

@[simp] theorem rsvdField_packWord (o : BitVec 2) (a : Byte) (g : Half) : rsvdField (packWord o a g) = 0#6 := by
  ext i hi
  simp only [rsvdField, packWord, BitVec.getElem_extractLsb', BitVec.getLsbD_append]
  have : ¬ 24 + i < 16 := by omega
  have : ¬ 24 + i - 16 < 8 := by omega
  have : 24 + i - 16 - 8 < 6 := by omega
  simp [*]

@[simp] theorem addrField_packWord (o : BitVec 2) (a : Byte) (g : Half) : addrField (packWord o a g) = a := by
  ext i hi
  simp only [addrField, packWord, BitVec.getElem_extractLsb', BitVec.getLsbD_append]
  have : ¬ 16 + i < 16 := by omega
  have e : 16 + i - 16 = i := by omega
  simp [*]

@[simp] theorem argField_packWord (o : BitVec 2) (a : Byte) (g : Half) : argField (packWord o a g) = g := by
  ext i hi
  simp only [argField, packWord, BitVec.getElem_extractLsb', BitVec.getLsbD_append]
  have : 0 + i < 16 := by omega
  simp [*]

@[simp] theorem argLow_append (x v : Byte) : argLow (x ++ v) = v := by
  ext i hi
  simp only [argLow, BitVec.getElem_extractLsb', BitVec.getLsbD_append]
  have : 0 + i < 8 := by omega
  simp [*]

@[simp] theorem argHigh_append (x v : Byte) : argHigh (x ++ v) = x := by
  ext i hi
  simp only [argHigh, BitVec.getElem_extractLsb', BitVec.getLsbD_append]
  have : ¬ 8 + i < 8 := by omega
  simp [*]

/-- A 16-bit argument is its two bytes. -/
theorem argHigh_argLow (g : Half) : argHigh g ++ argLow g = g := by
  apply BitVec.eq_of_toNat_eq
  simp only [argHigh, argLow, BitVec.toNat_append, BitVec.extractLsb'_toNat, Nat.shiftRight_zero]
  rw [← Nat.shiftLeft_add_eq_or_of_lt (by omega)]
  simp only [Nat.shiftLeft_eq, Nat.shiftRight_eq_div_pow]
  omega

@[simp] theorem ofCode_code (o : Op) : Op.ofCode o.code = o := by cases o <;> rfl

theorem code_ofCode (b : BitVec 2) : (Op.ofCode b).code = b := by
  revert b; decide

/-- A word is its four fields. -/
theorem word_fields (w : Word) :
    w = (opField w ++ rsvdField w ++ addrField w ++ argField w : BitVec (2 + 6 + 8 + 16)) := by
  apply BitVec.eq_of_toNat_eq
  simp only [opField, rsvdField, addrField, argField, BitVec.toNat_append, BitVec.extractLsb'_toNat, Nat.shiftRight_zero]
  rw [← Nat.shiftLeft_add_eq_or_of_lt (by omega), ← Nat.shiftLeft_add_eq_or_of_lt (by omega),
    ← Nat.shiftLeft_add_eq_or_of_lt (by omega)]
  simp only [Nat.shiftLeft_eq, Nat.shiftRight_eq_div_pow]
  omega

/-- A word without reserved bits is its three operand fields, packed. -/
theorem packWord_fields (w : Word) (h : rsvdField w = 0#6) : packWord (opField w) (addrField w) (argField w) = w := by
  conv_rhs => rw [word_fields w, h]
  rfl

/-- The top byte of a word is its operation and its reserved bits (30_encoding R60). -/
theorem topByte_iff (w : Word) (o : BitVec 2) :
    w &&& 0xFF000000#32 = packWord o 0#8 0#16 ↔ rsvdField w = 0#6 ∧ opField w = o := by
  have mask (k : Nat) : (0xFF000000#32).getLsbD k = decide (24 ≤ k ∧ k < 32) := by
    by_cases hk : k < 32
    · have all : ∀ k : Fin 32, (0xFF000000#32).getLsbD k.val = decide (24 ≤ k.val ∧ k.val < 32) := by decide
      exact all ⟨k, hk⟩
    · rw [BitVec.getLsbD_of_ge _ _ (by omega)]; simp; omega
  constructor
  · intro h
    have e : ∀ k, 24 ≤ k → k < 32 → w.getLsbD k = (packWord o 0#8 0#16).getLsbD k := by
      intro k h1 h2
      have := congrArg (·.getLsbD k) h
      simpa only [BitVec.getLsbD_and, mask, h1, h2, and_self, decide_true, Bool.and_true] using this
    constructor
    · rw [← rsvdField_packWord o 0#8 0#16]
      apply BitVec.eq_of_getLsbD_eq
      intro k hk
      simp only [rsvdField, BitVec.getLsbD_extractLsb', hk, decide_true, Bool.true_and]
      exact e _ (by omega) (by omega)
    · rw [← opField_packWord o 0#8 0#16]
      apply BitVec.eq_of_getLsbD_eq
      intro k hk
      simp only [opField, BitVec.getLsbD_extractLsb', hk, decide_true, Bool.true_and]
      exact e _ (by omega) (by omega)
  · rintro ⟨hr, rfl⟩
    conv_lhs => rw [← packWord_fields w hr]
    apply BitVec.eq_of_getLsbD_eq
    intro k hk
    rw [BitVec.getLsbD_and, mask]
    simp only [packWord, BitVec.getLsbD_append]
    by_cases h24 : k < 24
    · have : ¬ 24 ≤ k := by omega
      by_cases h16 : k < 16
      · simp [h16, this]
      · have : k - 16 < 8 := by omega
        simp [*]
    · have h1 : ¬ k < 16 := by omega
      have h2 : ¬ k - 16 < 8 := by omega
      have h3 : 24 ≤ k := by omega
      simp [h1, h2, h3, hk]

/-- What decoding answers, said once: the fields of the word, or a reserved bit. -/
theorem decode_ok {c : Command} {i : Instr} (h : decode c = .ok i) :
    rsvdField c.word = 0#6 ∧ i.op = Op.ofCode (opField c.word) ∧ i.addr = addrField c.word ∧
      i.arg = argField c.word ∧ (i.op = .wrn → i.data = c.data) ∧ (i.op ≠ .wrn → i.data = []) := by
  unfold decode at h
  split at h
  case isFalse => cases h
  case isTrue hr =>
    split at h <;> rename_i ho <;> cases h <;> simp [Instr.op, Instr.addr, Instr.arg, Instr.data, ho, hr, argHigh_argLow]

theorem decode_reservedBits_iff (c : Command) : decode c = .reservedBits ↔ rsvdField c.word ≠ 0#6 := by
  unfold decode
  split <;> rename_i hr
  · split <;> simp [hr]
  · simp [hr]

end Sys2Proof
end

