-- ==== Sys2Proof/Laws/Fixture.lean ====
section
/-! SUPPORT. What the test fixture DEV does over a whole burst. -/

namespace Sys2Proof.Machine

theorem devPositions_length (h : Byte) : ∀ (data : List Byte) (k : Nat) (d : Dev),
    (devPositions h k data d).2.length = data.length := by
  intro data
  induction data with
  | nil => intros; rfl
  | cons b rest ih => intro k d; simp only [devPositions]; split <;> simp [ih]

theorem devPositions_rx0 (h : Byte) : ∀ (data : List Byte) (k : Nat) (d : Dev),
    (devPositions h k data d).1.rx0 = d.rx0 := by
  intro data
  induction data with
  | nil => intros; rfl
  | cons b rest ih => intro k d; simp only [devPositions]; split <;> simp [ih]

/-- A write leaves the registers it does not address. -/
theorem devPositions_other (h : Byte) (h7 : h.getLsbD 7 = false) : ∀ (data : List Byte) (k : Nat) (d : Dev) (i : Fin 64),
    (∀ j, j < data.length → devIndex h (k + j) ≠ i) → (devPositions h k data d).1.reg[i] = d.reg[i] := by
  intro data
  induction data with
  | nil => intro k d i _; rfl
  | cons b rest ih =>
    intro k d i hne
    simp only [devPositions, h7, Bool.false_eq_true, if_false]
    rw [ih (k + 1)]
    · have h0 := hne 0 (by simp)
      simp only [Fin.getElem_fin]
      rw [Vector.getElem_set_ne]
      intro hh; exact h0 (Fin.ext hh)
    · intro j hj
      have := hne (j + 1) (by simpa using hj)
      rwa [show k + (j + 1) = k + 1 + j by omega] at this

/-- A write stores each byte at the register its position addresses, when the positions address different registers. -/
theorem devPositions_write (h : Byte) (h7 : h.getLsbD 7 = false) : ∀ (data : List Byte) (k : Nat) (d : Dev),
    (∀ i j, i < data.length → j < data.length → i ≠ j → devIndex h (k + i) ≠ devIndex h (k + j)) →
    ∀ j (hj : j < data.length), (devPositions h k data d).1.reg[devIndex h (k + j)] = data[j] := by
  intro data
  induction data with
  | nil => intro k d _ j hj; simp at hj
  | cons b rest ih =>
    intro k d hne j hj
    simp only [devPositions, h7, Bool.false_eq_true, if_false]
    cases j with
    | zero =>
      rw [devPositions_other h h7]
      · simp
      · intro j hj'
        rw [show k + 1 + j = k + (j + 1) by omega]
        exact hne (j + 1) 0 (by simpa using hj') (by simp) (by simp)
    | succ j =>
      have := ih (k + 1) { d with reg := d.reg.set (devIndex h k) b } (by
        intro i j hi hj hij
        rw [show k + 1 + i = k + (i + 1) by omega, show k + 1 + j = k + (j + 1) by omega]
        exact hne (i + 1) (j + 1) (by simpa using hi) (by simpa using hj) (by omega)) j (by simpa using hj)
      simpa [show k + 1 + j = k + (j + 1) by omega] using this

/-- A read answers each position with the register it addresses. -/
theorem devPositions_read (h : Byte) (h7 : h.getLsbD 7 = true) : ∀ (xs : List Byte) (k : Nat) (d : Dev) (j : Nat),
    j < xs.length → (devPositions h k xs d).2[j]? = some d.reg[devIndex h (k + j)] := by
  intro xs
  induction xs with
  | nil => intro k d j hj; simp at hj
  | cons b rest ih =>
    intro k d j hj
    simp only [devPositions, h7, if_true]
    cases j with
    | zero => simp
    | succ j =>
      have := ih (k + 1) d j (by simpa using hj)
      simpa [show k + 1 + j = k + (j + 1) by omega] using this

end Sys2Proof.Machine
end

