-- ==== Sys2Proof/Laws/State.lean ====
section
/-! SUPPORT. What each state update leaves in each field: one lemma per field per update, so that no proof unfolds a record
update. -/

namespace Sys2Proof.Machine

variable (st : Status) (d tx : List Byte) (op : Op) (a : Byte) (g : Half) (n : Nat) (s : State)

@[simp] theorem respond_params : (respond st d s).params = s.params := rfl
@[simp] theorem respond_phase : (respond st d s).phase = s.phase := rfl
@[simp] theorem respond_cOp : (respond st d s).cOp = s.cOp := rfl
@[simp] theorem respond_cAddr : (respond st d s).cAddr = s.cAddr := rfl
@[simp] theorem respond_cArg : (respond st d s).cArg = s.cArg := rfl
@[simp] theorem respond_inFlight : (respond st d s).inFlight = s.inFlight := rfl
@[simp] theorem respond_link : (respond st d s).link = s.link := rfl
@[simp] theorem respond_linkConfig : (respond st d s).linkConfig = s.linkConfig := rfl
@[simp] theorem respond_inputs : (respond st d s).inputs = s.inputs := rfl
@[simp] theorem respond_answers : (respond st d s).answers = s.answers := rfl
@[simp] theorem respond_responses : (respond st d s).responses = s.responses ++ [⟨st, d⟩] := rfl
@[simp] theorem respond_requests : (respond st d s).requests = s.requests := rfl
@[simp] theorem respond_draws : (respond st d s).draws = s.draws := rfl

@[simp] theorem refuse_params : (refuse st s).params = s.params := rfl
@[simp] theorem refuse_phase : (refuse st s).phase = s.phase := rfl
@[simp] theorem refuse_cOp : (refuse st s).cOp = s.cOp := rfl
@[simp] theorem refuse_cAddr : (refuse st s).cAddr = s.cAddr := rfl
@[simp] theorem refuse_cArg : (refuse st s).cArg = s.cArg := rfl
@[simp] theorem refuse_inFlight : (refuse st s).inFlight = s.inFlight := rfl
@[simp] theorem refuse_link : (refuse st s).link = s.link := rfl
@[simp] theorem refuse_linkConfig : (refuse st s).linkConfig = s.linkConfig := rfl
@[simp] theorem refuse_inputs : (refuse st s).inputs = s.inputs := rfl
@[simp] theorem refuse_answers : (refuse st s).answers = s.answers := rfl
@[simp] theorem refuse_responses : (refuse st s).responses = s.responses ++ [⟨st, []⟩] := rfl
@[simp] theorem refuse_requests : (refuse st s).requests = s.requests := rfl
@[simp] theorem refuse_draws : (refuse st s).draws = s.draws := rfl

@[simp] theorem accept_params : (accept op a g tx s).params = s.params := rfl
@[simp] theorem accept_phase : (accept op a g tx s).phase = .wait := rfl
@[simp] theorem accept_cOp : (accept op a g tx s).cOp = op := rfl
@[simp] theorem accept_cAddr : (accept op a g tx s).cAddr = a := rfl
@[simp] theorem accept_cArg : (accept op a g tx s).cArg = g := rfl
@[simp] theorem accept_inFlight : (accept op a g tx s).inFlight = some (requestFor tx) := rfl
@[simp] theorem accept_link : (accept op a g tx s).link = s.link := rfl
@[simp] theorem accept_linkConfig : (accept op a g tx s).linkConfig = s.linkConfig := rfl
@[simp] theorem accept_inputs : (accept op a g tx s).inputs = s.inputs := rfl
@[simp] theorem accept_answers : (accept op a g tx s).answers = s.answers := rfl
@[simp] theorem accept_responses : (accept op a g tx s).responses = s.responses := rfl
@[simp] theorem accept_requests : (accept op a g tx s).requests = s.requests ++ [requestFor tx] := rfl
@[simp] theorem accept_draws : (accept op a g tx s).draws = s.draws := rfl

@[simp] theorem finish_params : (finish st d s).params = s.params := rfl
@[simp] theorem finish_phase : (finish st d s).phase = .idle := rfl
@[simp] theorem finish_cOp : (finish st d s).cOp = s.cOp := rfl
@[simp] theorem finish_cAddr : (finish st d s).cAddr = s.cAddr := rfl
@[simp] theorem finish_cArg : (finish st d s).cArg = s.cArg := rfl
@[simp] theorem finish_inFlight : (finish st d s).inFlight = none := rfl
@[simp] theorem finish_link : (finish st d s).link = s.link := rfl
@[simp] theorem finish_linkConfig : (finish st d s).linkConfig = s.linkConfig := rfl
@[simp] theorem finish_inputs : (finish st d s).inputs = s.inputs := rfl
@[simp] theorem finish_answers : (finish st d s).answers = s.answers := rfl
@[simp] theorem finish_responses : (finish st d s).responses = s.responses ++ [⟨st, d⟩] := rfl
@[simp] theorem finish_requests : (finish st d s).requests = s.requests := rfl
@[simp] theorem finish_draws : (finish st d s).draws = s.draws := rfl

@[simp] theorem finishFailed_params : (finishFailed n s).params = s.params := rfl
@[simp] theorem finishFailed_phase : (finishFailed n s).phase = .idle := rfl
@[simp] theorem finishFailed_cOp : (finishFailed n s).cOp = s.cOp := rfl
@[simp] theorem finishFailed_cAddr : (finishFailed n s).cAddr = s.cAddr := rfl
@[simp] theorem finishFailed_cArg : (finishFailed n s).cArg = s.cArg := rfl
@[simp] theorem finishFailed_inFlight : (finishFailed n s).inFlight = none := rfl
@[simp] theorem finishFailed_link : (finishFailed n s).link = s.link := rfl
@[simp] theorem finishFailed_linkConfig : (finishFailed n s).linkConfig = s.linkConfig := rfl
@[simp] theorem finishFailed_inputs : (finishFailed n s).inputs = s.inputs := rfl
@[simp] theorem finishFailed_answers : (finishFailed n s).answers = s.answers := rfl
@[simp] theorem finishFailed_responses : (finishFailed n s).responses = s.responses ++ [⟨.transferFailed, unspecified s.draws n⟩] := rfl
@[simp] theorem finishFailed_requests : (finishFailed n s).requests = s.requests := rfl
@[simp] theorem finishFailed_draws : (finishFailed n s).draws = s.draws + n := rfl

/-! COMPLETE on either result. -/

variable (res : XferResult)

@[simp] theorem finishWith_success : finishWith .success d n s = finish .ok d s := rfl
@[simp] theorem finishWith_transferFailed : finishWith .transferFailed d n s = finishFailed n s := rfl
@[simp] theorem finishWith_params : (finishWith res d n s).params = s.params := by cases res <;> rfl
@[simp] theorem finishWith_phase : (finishWith res d n s).phase = .idle := by cases res <;> rfl
@[simp] theorem finishWith_cOp : (finishWith res d n s).cOp = s.cOp := by cases res <;> rfl
@[simp] theorem finishWith_cAddr : (finishWith res d n s).cAddr = s.cAddr := by cases res <;> rfl
@[simp] theorem finishWith_cArg : (finishWith res d n s).cArg = s.cArg := by cases res <;> rfl
@[simp] theorem finishWith_inFlight : (finishWith res d n s).inFlight = none := by cases res <;> rfl
@[simp] theorem finishWith_link : (finishWith res d n s).link = s.link := by cases res <;> rfl
@[simp] theorem finishWith_linkConfig : (finishWith res d n s).linkConfig = s.linkConfig := by cases res <;> rfl
@[simp] theorem finishWith_inputs : (finishWith res d n s).inputs = s.inputs := by cases res <;> rfl
@[simp] theorem finishWith_answers : (finishWith res d n s).answers = s.answers := by cases res <;> rfl
@[simp] theorem finishWith_requests : (finishWith res d n s).requests = s.requests := by cases res <;> rfl

/-! An open and its registers. -/

section Opened

variable (w : BusHandle) (tr : OpenTrace)

@[simp] theorem opened_params : (opened w tr s).params = s.params := rfl
@[simp] theorem opened_phase : (opened w tr s).phase = s.phase := rfl
@[simp] theorem opened_cOp : (opened w tr s).cOp = s.cOp := rfl
@[simp] theorem opened_cAddr : (opened w tr s).cAddr = s.cAddr := rfl
@[simp] theorem opened_cArg : (opened w tr s).cArg = s.cArg := rfl
@[simp] theorem opened_inFlight : (opened w tr s).inFlight = s.inFlight := rfl
@[simp] theorem opened_link : (opened w tr s).link = (openResult w tr s.linkConfig).1 := rfl
@[simp] theorem opened_linkConfig : (opened w tr s).linkConfig = (openResult w tr s.linkConfig).2 := rfl
@[simp] theorem opened_inputs : (opened w tr s).inputs = s.inputs := rfl
@[simp] theorem opened_answers : (opened w tr s).answers = s.answers := rfl
@[simp] theorem opened_responses : (opened w tr s).responses = s.responses := rfl
@[simp] theorem opened_requests : (opened w tr s).requests = s.requests := rfl
@[simp] theorem opened_draws : (opened w tr s).draws = s.draws := rfl

@[simp] theorem handle_configured (r : Resource) : State.handle { s with link := .configured r } = some ⟨r, s.linkConfig⟩ := rfl
@[simp] theorem handle_closed : State.handle { s with link := .closed } = none := rfl

end Opened

/-! A request for a frame. -/

@[simp] theorem requestFor_tx : (requestFor tx).tx = tx := rfl
@[simp] theorem requestFor_flen : (requestFor tx).flen = tx.length := rfl
@[simp] theorem requestFor_speedHz : (requestFor tx).speedHz = 10000 := rfl
@[simp] theorem requestFor_wordBits : (requestFor tx).wordBits = 8 := rfl

end Sys2Proof.Machine
end

