-- ==== Sys2Proof/Laws/Ops.lean ====
section
/-! SUPPORT. What the shared operations can do: the checks, ACCEPT of every instruction, COMPLETE of every operation. -/

namespace Sys2Proof.Machine

/-! ### The checks -/

@[simp] theorem firstFailure_nil : firstFailure [] = none := rfl

@[simp] theorem firstFailure_none (l : List (Option Status)) : firstFailure (none :: l) = firstFailure l := rfl

@[simp] theorem firstFailure_some (st : Status) (l : List (Option Status)) : firstFailure (some st :: l) = some st := rfl

/-- The status that decides is one of the checks'. -/
theorem firstFailure_mem {l : List (Option Status)} {st : Status} (h : firstFailure l = some st) : some st ∈ l := by
  obtain ⟨x, hx, rfl⟩ := List.exists_of_findSome?_eq_some h
  exact hx

theorem firstFailure_eq_none {l : List (Option Status)} : firstFailure l = none ↔ ∀ x ∈ l, x = none := by
  simp [firstFailure, List.findSome?_eq_none_iff]

theorem checkLink_none {s : State} : checkLink s = none ↔ s.linkOk = true := by
  unfold checkLink; split <;> simp_all

theorem legalAddr_iff (a : Byte) : legalAddr a = true ↔ a.toNat ≤ 0x3F := by
  simp [legalAddr, Config.addrMax, BitVec.le_def]

theorem checkAddr_none {p : Params} {a : Byte} :
    checkAddr p a = none ↔ (p.addrPolicy = .refuse → a.toNat ≤ 0x3F) := by
  unfold checkAddr
  split <;> rename_i hp <;> simp [hp, ← legalAddr_iff]

theorem checkReadLen_none {p : Params} {len : Half} : checkReadLen p len = none ↔ len.toNat + 1 ≤ p.maxFrame := by
  unfold checkReadLen; split <;> simp <;> omega

theorem checkWriteLen_none {p : Params} {len : Half} {data : List Byte} :
    checkWriteLen p len data = none ↔ len.toNat ≤ p.maxFrame ∧ len.toNat = data.length := by
  unfold checkWriteLen; split <;> simp <;> omega

theorem checkLink_some {s : State} {st : Status} (h : checkLink s = some st) : st = .noLink := by
  unfold checkLink at h; split at h <;> simp_all

theorem checkAddr_some {p : Params} {a : Byte} {st : Status} (h : checkAddr p a = some st) : st = .badAddr := by
  unfold checkAddr at h; split at h
  · split at h <;> simp_all
  · cases h

theorem checkReadLen_some {p : Params} {len : Half} {st : Status} (h : checkReadLen p len = some st) : st = .badLen := by
  unfold checkReadLen at h; split at h <;> simp_all

theorem checkWriteLen_some {p : Params} {len : Half} {data : List Byte} {st : Status}
    (h : checkWriteLen p len data = some st) : st = .badLen := by
  unfold checkWriteLen at h; split at h <;> simp_all

/-! ### ACCEPT -/

/-- The checks an instruction passes through, in their order (60_exceptions R104). -/
def checksOf (s : State) : Instr → List (Option Status)
  | .rdb a _ => [checkLink s, checkAddr s.params a]
  | .rdn a len => [checkLink s, checkAddr s.params a, checkReadLen s.params len]
  | .wrb a _ _ => [checkLink s, checkAddr s.params a]
  | .wrn _ len data => [checkLink s, checkWriteLen s.params len data]

/-- The transmit frame of an instruction (30_encoding R53). -/
def frameOf : Instr → List Byte
  | .rdb a _ => frameRdb a
  | .rdn a len => frameRdn a len
  | .wrb a _ v => frameWrb a v
  | .wrn _ len data => frameWrn len data

/-- ACCEPT of every instruction is one shape: its checks, its frame, its fields latched. -/
theorem exec_eq (i : Instr) (s : State) :
    exec i s = acceptUnless (firstFailure (checksOf s i)) (accept i.op i.addr i.arg (frameOf i) s) s := by
  cases i <;> rfl

/-- A refusal by a check reports no exchange. -/
theorem checksOf_failure {i : Instr} {s : State} {st : Status} (h : firstFailure (checksOf s i) = some st) :
    st = .noLink ∨ st = .badAddr ∨ st = .badLen := by
  have hm := firstFailure_mem h
  cases i <;> simp only [checksOf, List.mem_cons, List.not_mem_nil, or_false] at hm
  · rcases hm with h | h
    · exact .inl (checkLink_some h.symm)
    · exact .inr (.inl (checkAddr_some h.symm))
  · rcases hm with h | h | h
    · exact .inl (checkLink_some h.symm)
    · exact .inr (.inl (checkAddr_some h.symm))
    · exact .inr (.inr (checkReadLen_some h.symm))
  · rcases hm with h | h
    · exact .inl (checkLink_some h.symm)
    · exact .inr (.inl (checkAddr_some h.symm))
  · rcases hm with h | h
    · exact .inl (checkLink_some h.symm)
    · exact .inr (.inr (checkWriteLen_some h.symm))

/-- What ACCEPT of a decoded command can do: refuse with a check's status, or latch and hand over. It never stops. -/
theorem exec_cases (i : Instr) (s : State) :
    (∃ st, firstFailure (checksOf s i) = some st ∧ exec i s = .next (refuse st s)) ∨
    (firstFailure (checksOf s i) = none ∧ exec i s = .next (accept i.op i.addr i.arg (frameOf i) s)) := by
  rw [exec_eq]
  cases h : firstFailure (checksOf s i) with
  | none => exact .inr ⟨rfl, rfl⟩
  | some st => exact .inl ⟨st, rfl, rfl⟩

/-- Passing the checks says that the link is up. -/
theorem linkOk_of_checks {i : Instr} {s : State} (h : firstFailure (checksOf s i) = none) : s.linkOk = true := by
  rw [firstFailure_eq_none] at h
  cases i <;> exact checkLink_none.1 (h _ (by simp [checksOf]))

/-! ### The header and the frames -/

theorem hdr_read (a : Byte) : hdr a true false = a ||| 0x80#8 := by simp [hdr, Config.readFlag]

theorem hdr_burst (a : Byte) : hdr a true true = a ||| 0xC0#8 := by
  simp [hdr, Config.readFlag, Config.burstFlag, BitVec.or_assoc]

theorem hdr_write (a : Byte) : hdr a false false = a := by simp [hdr]

theorem frameRdb_eq (a : Byte) : frameRdb a = [a ||| 0x80#8, 0x00#8] := by simp [frameRdb, hdr_read, Config.placeholder]

theorem frameRdn_eq (a : Byte) (len : Half) :
    frameRdn a len = (a ||| 0xC0#8) :: List.replicate len.toNat 0x00#8 := by
  simp [frameRdn, hdr_burst, Config.placeholder]

theorem frameWrb_eq (a v : Byte) : frameWrb a v = [a, v] := by simp [frameWrb, hdr_write]

theorem frameWrn_eq {len : Half} {data : List Byte} (h : len.toNat = data.length) : frameWrn len data = data := by
  simp [frameWrn, h]

/-- An accepted frame has the length its operation and length operand say (30_encoding R57). -/
theorem frameOf_length {i : Instr} {s : State} (h : firstFailure (checksOf s i) = none) :
    (frameOf i).length = frameLen i.op i.arg := by
  rw [firstFailure_eq_none] at h
  cases i with
  | rdb a x => rfl
  | rdn a len => simp [frameOf, frameRdn, frameLen, Instr.op, Instr.arg]
  | wrb a x v => rfl
  | wrn x len data =>
    have hl := (checkWriteLen_none.1 (h _ (List.mem_cons_of_mem _ (List.mem_singleton_self _)))).2
    simp [frameOf, frameWrn_eq hl, frameLen, Instr.op, Instr.arg, hl]

/-- An accepted frame is within the limit (30_encoding R57). -/
theorem frameLen_le {i : Instr} {s : State} (hp : s.params.wf) (h : firstFailure (checksOf s i) = none) :
    frameLen i.op i.arg ≤ s.params.maxFrame := by
  rw [firstFailure_eq_none] at h
  cases i with
  | rdb a x => exact Nat.le_trans (by simp [frameLen, Instr.op]) hp.1
  | rdn a len => exact checkReadLen_none.1 (h (checkReadLen s.params len) (by simp [checksOf]))
  | wrb a x v => exact Nat.le_trans (by simp [frameLen, Instr.op]) hp.1
  | wrn x len data => exact (checkWriteLen_none.1 (h (checkWriteLen s.params len data) (by simp [checksOf]))).1

/-- The fields of a header byte of a legal address (30_encoding R52). -/
theorem hdr_fields (a : Byte) (r b : Bool) (h : a.toNat ≤ 0x3F) :
    (hdr a r b).getLsbD 7 = r ∧ (hdr a r b).getLsbD 6 = b ∧ (hdr a r b).extractLsb' 0 6 = a.extractLsb' 0 6 := by
  have key : ∀ n : Fin 64, ∀ r b : Bool,
      (hdr (BitVec.ofNat 8 n) r b).getLsbD 7 = r ∧ (hdr (BitVec.ofNat 8 n) r b).getLsbD 6 = b ∧
        (hdr (BitVec.ofNat 8 n) r b).extractLsb' 0 6 = (BitVec.ofNat 8 n : Byte).extractLsb' 0 6 := by decide
  have := key ⟨a.toNat, by omega⟩ r b
  simpa using this

/-! ### COMPLETE -/

/-- The bytes a successful operation returns (20_memory R36). -/
def returnedBytes (op : Op) (arg : Half) (rx : List Byte) : List Byte :=
  match op with
  | .rdb => slice rx 1 1
  | .rdn => slice rx 1 arg.toNat
  | .wrb => []
  | .wrn => []

/-- COMPLETE of every operation is one shape. -/
theorem complete_eq (ans : Answer) (s : State) :
    complete ans s = finishWith ans.res (returnedBytes s.cOp s.cArg ans.rx) (returnedLen s.cOp s.cArg) s := by
  unfold complete
  split <;> rename_i h <;> simp only [h] <;> rfl

@[simp] theorem unspecified_length (k n : Nat) : (unspecified k n).length = n := by simp [unspecified]

/-- Position 0 never reaches the host. -/
theorem returnedBytes_cons (op : Op) (arg : Half) (b : Byte) (rx : List Byte) :
    returnedBytes op arg (b :: rx) = rx.take (returnedLen op arg) := by
  cases op <;> simp [returnedBytes, slice, returnedLen]

end Sys2Proof.Machine
end

