-- ==== Sys2Proof/Laws/PerInstr.lean ====
section
/-! SUPPORT. Per instruction: the top byte of its word is the match of its row in spec/opcode_table.json (30_encoding R60). -/

namespace Sys2Proof.Laws.OpcodeMap

open Sys2Proof

/-- The "match" of the instruction's row in spec/opcode_table.json, under the mask 0xFF000000 that every row has. -/
def rowMatch : Instr → Word
  | .rdb _ _ => 0x00000000#32
  | .rdn _ _ => 0x40000000#32
  | .wrb _ _ _ => 0x80000000#32
  | .wrn _ _ _ => 0xC0000000#32

/-- The word of the instruction matches its own row. -/
def Statement (i : Instr) : Prop := (encode i).word &&& 0xFF000000#32 = rowMatch i

theorem rdb (addr : Byte) (ignored : Half) : Statement (.rdb addr ignored) :=
  (topByte_iff _ 0#2).2 ⟨rsvdField_packWord _ _ _, opField_packWord _ _ _⟩

theorem rdn (addr : Byte) (len : Half) : Statement (.rdn addr len) :=
  (topByte_iff _ 1#2).2 ⟨rsvdField_packWord _ _ _, opField_packWord _ _ _⟩

theorem wrb (addr ignored value : Byte) : Statement (.wrb addr ignored value) :=
  (topByte_iff _ 2#2).2 ⟨rsvdField_packWord _ _ _, opField_packWord _ _ _⟩

theorem wrn (ignored : Byte) (len : Half) (data : List Byte) : Statement (.wrn ignored len data) :=
  (topByte_iff _ 3#2).2 ⟨rsvdField_packWord _ _ _, opField_packWord _ _ _⟩

end Sys2Proof.Laws.OpcodeMap
end

