-- ==== Sys2Proof/Laws/Step.lean ====
section
/-! SUPPORT. What one step can do: one equation per case of the sequencing, and the inversion of a step that answers a next
state. -/

namespace Sys2Proof.Machine

variable {s t : State}

theorem step_idle_nil (hp : s.phase = .idle) (hi : s.inputs = []) : step s = .next s := by
  simp [step, turn, idleTurn, hp, hi]

theorem step_idle_ok {c : Command} {rest : List Input} {i : Instr} (hp : s.phase = .idle)
    (hi : s.inputs = .command c :: rest) (hd : decode c = .ok i) : step s = exec i { s with inputs := rest } := by
  simp [step, turn, idleTurn, present, hp, hi, hd]

theorem step_idle_reserved {c : Command} {rest : List Input} (hp : s.phase = .idle)
    (hi : s.inputs = .command c :: rest) (hd : decode c = .reservedBits) :
    step s = .next (refuse .badCmd { s with inputs := rest }) := by
  simp [step, turn, idleTurn, present, hp, hi, hd]

theorem step_idle_open {w : BusHandle} {tr : OpenTrace} {rest : List Input} (hp : s.phase = .idle)
    (hi : s.inputs = .openLink w tr :: rest) : step s = openLink w tr { s with inputs := rest } := by
  simp [step, turn, idleTurn, hp, hi]

theorem step_idle_close {rest : List Input} (hp : s.phase = .idle) (hi : s.inputs = .closeLink :: rest) :
    step s = closeLink { s with inputs := rest } := by
  simp [step, turn, idleTurn, hp, hi]

theorem step_wait_none (hp : s.phase = .wait) (hf : s.inFlight = none) : step s = .next s := by
  simp [step, turn, waitTurn, hp, hf]

theorem step_wait_withheld (hp : s.phase = .wait) (ha : s.answers = []) : step s = .next s := by
  cases hf : s.inFlight <;> simp [step, turn, waitTurn, answerTurn, hp, hf, ha]

theorem step_wait_answer {req : Request} {ans : Answer} {later : List Answer} (hp : s.phase = .wait)
    (hf : s.inFlight = some req) (ha : s.answers = ans :: later) :
    step s = if ans.rx.length = req.flen then .next (complete ans { s with answers := later })
      else .fault .answerBreaksContract := by
  simp [step, turn, waitTurn, answerTurn, hp, hf, ha]

/-- COMPLETE happens when the outstanding exchange is answered with as many positions as it has. -/
theorem step_wait_complete {req : Request} {ans : Answer} {later : List Answer} (hp : s.phase = .wait)
    (hf : s.inFlight = some req) (ha : s.answers = ans :: later) (hl : ans.rx.length = req.flen) :
    step s = .next (complete ans { s with answers := later }) := by
  rw [step_wait_answer hp hf ha, if_pos hl]

/-- An open that gives a next state: the link was not configured, and only the link and its registers change. -/
theorem openLink_next {w : BusHandle} {tr : OpenTrace} (h : openLink w tr s = .next t) :
    s.linkOk = false ∧ t = opened w tr s := by
  unfold openLink at h
  split at h <;> cases h <;> simp [State.linkOk, Link.isConfigured, *]

/-- A close that gives a next state: a configured link becomes closed, and nothing else changes. -/
theorem closeLink_next (h : closeLink s = .next t) :
    s.linkOk = true ∧ t = { s with link := .closed } := by
  unfold closeLink at h
  split at h <;> cases h
  simp [State.linkOk, Link.isConfigured, *]

/-- The case a step that answers a next state falls under. -/
inductive StepCase (s t : State) : Prop where
  /-- Nothing presented, or no answer to an outstanding exchange: the state stays. -/
  | stays (why : (s.phase = .idle ∧ s.inputs = []) ∨ (s.phase = .wait ∧ (s.inFlight = none ∨ s.answers = [])))
      (ht : t = s)
  /-- A command refused before any exchange. -/
  | refuses (c : Command) (rest : List Input) (st : Status) (hp : s.phase = .idle) (hi : s.inputs = .command c :: rest)
      (hs : st.exchanged = false) (hn : s.linkOk = false → st = .noLink ∨ st = .badCmd)
      (ht : t = refuse st { s with inputs := rest })
  /-- A command accepted. -/
  | accepts (c : Command) (rest : List Input) (i : Instr) (hp : s.phase = .idle) (hi : s.inputs = .command c :: rest)
      (hd : decode c = .ok i) (hc : firstFailure (checksOf { s with inputs := rest } i) = none)
      (ht : t = accept i.op i.addr i.arg (frameOf i) { s with inputs := rest })
  /-- The link manager opened the link, or tried to. -/
  | opens (w : BusHandle) (tr : OpenTrace) (rest : List Input) (hp : s.phase = .idle)
      (hi : s.inputs = .openLink w tr :: rest) (hl : s.linkOk = false)
      (ht : t = opened w tr { s with inputs := rest })
  /-- The link manager closed the link. -/
  | closes (rest : List Input) (hp : s.phase = .idle) (hi : s.inputs = .closeLink :: rest) (hl : s.linkOk = true)
      (ht : t = { s with inputs := rest, link := .closed })
  /-- The exchange in flight was answered. -/
  | completes (req : Request) (ans : Answer) (later : List Answer) (hp : s.phase = .wait) (hf : s.inFlight = some req)
      (ha : s.answers = ans :: later) (hlen : ans.rx.length = req.flen)
      (ht : t = complete ans { s with answers := later })

theorem step_cases (h : step s = .next t) : StepCase s t := by
  cases hp : s.phase with
  | idle =>
    match hi : s.inputs with
    | [] =>
      rw [step_idle_nil hp hi] at h
      cases h; exact .stays (.inl ⟨hp, hi⟩) rfl
    | .command c :: rest =>
      cases hd : decode c with
      | reservedBits =>
        rw [step_idle_reserved hp hi hd] at h
        cases h; exact .refuses c rest .badCmd hp hi rfl (fun _ => .inr rfl) rfl
      | ok i =>
        rw [step_idle_ok hp hi hd] at h
        rcases exec_cases i { s with inputs := rest } with ⟨st, hf, he⟩ | ⟨hf, he⟩ <;> rw [he] at h <;> cases h
        · refine .refuses c rest st hp hi ?_ ?_ rfl
          · rcases checksOf_failure hf with rfl | rfl | rfl <;> rfl
          · intro hl
            have hk : checkLink { s with inputs := rest } = some .noLink := by
              unfold checkLink; exact if_neg (by simpa [State.linkOk] using hl)
            cases i <;> simp [checksOf, hk] at hf <;> exact .inl hf.symm
        · exact .accepts c rest i hp hi hd hf rfl
    | .openLink w tr :: rest =>
      rw [step_idle_open hp hi] at h
      obtain ⟨hl, ht⟩ := openLink_next h
      exact .opens w tr rest hp hi hl ht
    | .closeLink :: rest =>
      rw [step_idle_close hp hi] at h
      obtain ⟨hl, ht⟩ := closeLink_next h
      exact .closes rest hp hi hl ht
  | wait =>
    match hf : s.inFlight, ha : s.answers with
    | none, _ =>
      rw [step_wait_none hp hf] at h
      cases h; exact .stays (.inr ⟨hp, .inl hf⟩) rfl
    | some req, [] =>
      rw [step_wait_withheld hp ha] at h
      cases h; exact .stays (.inr ⟨hp, .inr ha⟩) rfl
    | some req, ans :: later =>
      rw [step_wait_answer hp hf ha] at h
      split at h <;> cases h
      exact .completes req ans later hp hf ha ‹_› rfl

/-- A command taken in IDLE after which PHASE is WAIT was accepted. -/
theorem step_accepted {c : Command} {rest : List Input} (hp : s.phase = .idle) (hi : s.inputs = .command c :: rest)
    (h : step s = .next t) (hw : t.phase = .wait) :
    ∃ i, decode c = .ok i ∧ firstFailure (checksOf { s with inputs := rest } i) = none ∧
      t = accept i.op i.addr i.arg (frameOf i) { s with inputs := rest } := by
  cases step_cases h with
  | stays why ht => subst ht; rw [hp] at hw; cases hw
  | refuses _ _ _ _ _ _ _ ht => subst ht; rw [refuse_phase, hp] at hw; cases hw
  | accepts c' rest' i _ hi' hd hc ht => rw [hi] at hi'; cases hi'; exact ⟨i, hd, hc, ht⟩
  | opens _ _ _ _ hi' => rw [hi] at hi'; cases hi'
  | closes _ _ hi' => rw [hi] at hi'; cases hi'
  | completes _ _ _ hp' => rw [hp] at hp'; cases hp'

/-- A command taken in IDLE after which PHASE is IDLE was refused. -/
theorem step_refused {c : Command} {rest : List Input} (hp : s.phase = .idle) (hi : s.inputs = .command c :: rest)
    (h : step s = .next t) (hw : t.phase = .idle) :
    ∃ st : Status, st.exchanged = false ∧ t = refuse st { s with inputs := rest } := by
  cases step_cases h with
  | stays why ht => subst ht; rcases why with ⟨_, hn⟩ | ⟨hn, _⟩ <;> simp_all
  | refuses c' rest' st _ hi' hs _ ht => rw [hi] at hi'; cases hi'; exact ⟨st, hs, ht⟩
  | accepts _ _ _ _ _ _ _ ht => subst ht; cases hw
  | opens _ _ _ _ hi' => rw [hi] at hi'; cases hi'
  | closes _ _ hi' => rw [hi] at hi'; cases hi'
  | completes _ _ _ hp' => rw [hp] at hp'; cases hp'

/-- In WAIT either nothing can happen yet or the exchange in flight has an answer. -/
theorem wait_forms (s : State) :
    (s.inFlight = none ∨ s.answers = []) ∨ ∃ req ans later, s.inFlight = some req ∧ s.answers = ans :: later := by
  cases s.inFlight <;> cases s.answers <;> simp

/-- An open while the link is not configured only sets the link and its registers. -/
theorem openLink_down {w : BusHandle} {tr : OpenTrace} (h : s.linkOk = false) :
    openLink w tr s = .next (opened w tr s) := by
  unfold openLink
  split <;> rename_i hl <;> simp [State.linkOk, hl, Link.isConfigured] at h ⊢

section SetThenConfirm

variable {α : Type} [DecidableEq α] {tr : ConfigTry α} {v : α}

/-- A set-then-confirm step whose set succeeds and which reads back the wanted value succeeds, and the register holds it. -/
theorem confirms_readBack (hs : tr.setOk = true) (hr : tr.readBack = some v) :
    confirms tr v = true ∧ settled tr v = v := by simp [confirms, settled, hs, hr]

/-- A set-then-confirm step whose set or get fails fails, and the register holds what the platform left there. -/
theorem confirms_failed (h : tr.setOk = false ∨ tr.readBack = none) :
    confirms tr v = false ∧ settled tr v = tr.left := by rcases h with h | h <;> simp [confirms, settled, h]

end SetThenConfirm

/-- The word `withFetchWord` presents is what the next step runs. -/
theorem step_withFetchWord (s : State) {nbits w : Nat} {i : Instr} (h : decodeTableWord nbits w = some i) :
    step (s.withFetchWord nbits w) =
      exec i { s with phase := .idle, inFlight := none } := by
  have hd : decode (tableCommand nbits w) = .ok i := by
    unfold decodeTableWord at h
    split at h <;> simp_all
  exact step_idle_ok (s := s.withFetchWord nbits w) rfl rfl hd

end Sys2Proof.Machine
end

