-- ==== Sys2Proof/Laws/Run.lean ====
section
/-! SUPPORT. Runs of the machine: one step and the rest, and the induction over a run, packaged once. -/

namespace Sys2Proof.Machine

/-- A step in WAIT reads PHASE, the exchange, the answers and what COMPLETE reads: a change of the state that keeps PHASE,
the exchange and the answers, and that COMPLETE commutes with, commutes with the step. -/
theorem step_wait_mapNext (f : State → State) (s : State) (hp : s.phase = .wait) (h1 : (f s).phase = s.phase)
    (h2 : (f s).inFlight = s.inFlight) (h3 : (f s).answers = s.answers)
    (hc : ∀ ans later, complete ans { f s with answers := later } = f (complete ans { s with answers := later })) :
    step (f s) = mapNext f (step s) := by
  rcases wait_forms s with h | ⟨req, ans, later, hf, ha⟩
  · rcases h with h | h
    · rw [step_wait_none hp h, step_wait_none (h1.trans hp) (h2.trans h)]; rfl
    · rw [step_wait_withheld hp h, step_wait_withheld (h1.trans hp) (h3.trans h)]; rfl
  · rw [step_wait_answer hp hf ha, step_wait_answer (h1.trans hp) (h2.trans hf) (h3.trans ha), hc]
    split <;> rfl

theorem run_zero (s : State) : Host.Core.run Sys2Proof.core 0 s = .next s := rfl

/-- The first step of a run gives a next state. -/
theorem run_succ_next {s u : State} (k : Nat) (h : step s = .next u) :
    Host.Core.run Sys2Proof.core (k + 1) s = Host.Core.run Sys2Proof.core k u := by
  have h' : Sys2Proof.core.step s = .next u := h
  simp only [Host.Core.run, h']

/-- The first step of a run stops it. -/
theorem run_succ_fault {s : State} {f : Fault} (k : Nat) (h : step s = .fault f) :
    Host.Core.run Sys2Proof.core (k + 1) s = .fault f := by
  have h' : Sys2Proof.core.step s = .fault f := h
  simp only [Host.Core.run, h']

theorem run_succ_refused {s : State} {r : Refusal} (k : Nat) (h : step s = .refused r) :
    Host.Core.run Sys2Proof.core (k + 1) s = .refused r := by
  have h' : Sys2Proof.core.step s = .refused r := h
  simp only [Host.Core.run, h']

/-- A run that answers a next state is a step and a run. -/
theorem run_succ_cases {k : Nat} {s t : State} (h : Host.Core.run Sys2Proof.core (k + 1) s = .next t) :
    ∃ u, step s = .next u ∧ Host.Core.run Sys2Proof.core k u = .next t := by
  cases hs : step s with
  | next u => exact ⟨u, rfl, by rw [← run_succ_next k hs]; exact h⟩
  | fault f => rw [run_succ_fault k hs] at h; cases h
  | refused r => rw [run_succ_refused k hs] at h; cases h

/-- A relation that is reflexive and transitive and holds across every step holds across every run. -/
theorem run_relates {R : State → State → Prop} (refl : ∀ s, R s s) (trans : ∀ {s t u}, R s t → R t u → R s u)
    (hstep : ∀ {s t}, step s = .next t → R s t) :
    ∀ (k : Nat) (s t : State), Host.Core.run Sys2Proof.core k s = .next t → R s t := by
  intro k
  induction k with
  | zero => intro s t h; cases h; exact refl s
  | succ k ih =>
    intro s t h
    obtain ⟨u, h1, h2⟩ := run_succ_cases h
    exact trans (hstep h1) (ih u t h2)

end Sys2Proof.Machine
end

