-- ==== Sys2Proof/Tests/Slice0.lean ====
section
/-! SUPPORT. Tests with expected results from the spec's own vectors (95_test_vectors, `MAX_FRAME` = 33), the smoke test of WellFormed,
and a witness for the hypotheses of each statement. -/

namespace Sys2Proof.Tests

open Sys2Proof Sys2Proof.Machine

/-! ### Small states -/

/-- The vectors' parameters: `MAX_FRAME` = 33, `refuse`. -/
def params33 : Params := ⟨33, .refuse⟩

/-- Some configured link. -/
def link0 : BusHandle := ⟨⟨1, 0⟩, ⟨500000, 3, 8⟩⟩

/-- An idle block over a configured link. -/
def ready (inputs : List Input) (answers : List Answer) : State :=
  { State.reset with
    params := params33, link := .configured link0.resource, linkConfig := link0.config, inputs := inputs, answers := answers }

/-- A waiting block with the given latch and exchange in flight. -/
def waiting (op : Op) (addr : Byte) (arg : Half) (tx : List Byte) (answers : List Answer) : State :=
  accept op addr arg tx (ready [] answers)

/-- The responses of an outcome's next state. -/
def responsesOf : Result → List Response
  | .next t => t.responses
  | .fault _ => []
  | .refused _ => []

/-- The transmit frames of an outcome's next state. -/
def framesOf : Result → List (List Byte)
  | .next t => t.requests.map Request.tx
  | .fault _ => []
  | .refused _ => []

/-- Two steps from an idle block: ACCEPT and COMPLETE of one command, answered `Success`. -/
def exchange (w : Word) (data rx : List Byte) : Result :=
  Host.Core.run Sys2Proof.core 2 (ready [.command ⟨w, data⟩] [⟨.success, rx⟩])

/-- An idle block with the command presented, the link up or not. -/
def presented (up : Bool) (w : Word) (data : List Byte) : State :=
  { ready [.command ⟨w, data⟩] [] with link := if up then .configured link0.resource else .unopened }

/-- One step from there. -/
def attempt (up : Bool) (w : Word) (data : List Byte) : Result := step (presented up w data)

/-! ### WellFormed refuses an ill-formed term for each of its checks -/

theorem test_wf_rdb_address : (Instr.rdb 0x40#8 0#16).wellFormed params33 = false := by decide
theorem test_wf_rdn_address : (Instr.rdn 0xC0#8 1#16).wellFormed params33 = false := by decide
theorem test_wf_rdn_length : (Instr.rdn 0x00#8 33#16).wellFormed params33 = false := by decide
theorem test_wf_wrb_address : (Instr.wrb 0x80#8 0#8 1#8).wellFormed params33 = false := by decide
theorem test_wf_wrn_count : (Instr.wrn 0#8 3#16 [0x01#8, 0x02#8]).wellFormed params33 = false := by decide
theorem test_wf_wrn_length : (Instr.wrn 0#8 34#16 (List.replicate 34 0#8)).wellFormed params33 = false := by decide
theorem test_wf_accepts_boundaries : (Instr.rdb 0x3F#8 0xFFFF#16).wellFormed params33 ∧
    (Instr.rdn 0x3F#8 32#16).wellFormed params33 ∧ (Instr.wrb 0x3F#8 0xAB#8 0xFF#8).wellFormed params33 ∧
    (Instr.wrn 0xFF#8 33#16 (List.replicate 33 0#8)).wellFormed params33 := by decide

/-! ### Words written out bit by bit from 30_encoding R55: OP, reserved, ADDR, ARG -/

/-- V6: 00 000000 00101101 11111111 11111111. -/
theorem test_decode_rdb : decode ⟨0b00_000000_00101101_1111111111111111#32, []⟩ = .ok (.rdb 0x2D#8 0xFFFF#16) := by decide

/-- V14: 01 000000 00110010 00000000 00000110. -/
theorem test_decode_rdn : decode ⟨0b01_000000_00110010_0000000000000110#32, []⟩ = .ok (.rdn 0x32#8 6#16) := by decide

/-- V24: 10 000000 00101101 10101011 00001000. -/
theorem test_decode_wrb : decode ⟨0b10_000000_00101101_10101011_00001000#32, []⟩ = .ok (.wrb 0x2D#8 0xAB#8 0x08#8) := by
  decide

/-- V31: 11 000000 11111111 00000000 00000010. -/
theorem test_decode_wrn : decode ⟨0b11_000000_11111111_0000000000000010#32, [0x2D#8, 0x08#8]⟩ =
    .ok (.wrn 0xFF#8 2#16 [0x2D#8, 0x08#8]) := by decide

/-- V41, V42: a reserved bit, the lowest and the highest of the six. -/
theorem test_decode_reserved : decode ⟨0x012D0000#32, []⟩ = .reservedBits ∧ decode ⟨0x202D0000#32, []⟩ = .reservedBits := by
  decide

/-- The table's words, with DATA of zeros for WRN. -/
theorem test_decodeTableWord : decodeTableWord 32 0x002D0000 = some (.rdb 0x2D#8 0#16) ∧
    decodeTableWord 32 0x40320006 = some (.rdn 0x32#8 6#16) ∧
    decodeTableWord 32 0x802D0008 = some (.wrb 0x2D#8 0#8 0x08#8) ∧
    decodeTableWord 32 0xC0000002 = some (.wrn 0#8 2#16 [0#8, 0#8]) ∧ decodeTableWord 32 0x01000000 = none := by decide

/-- V22 encoded. -/
theorem test_encode_wrb : encode (.wrb 0x2D#8 0x00#8 0x08#8) = ⟨0x802D0008#32, []⟩ := by decide

/-! ### The header table of part 2 -/

theorem test_hdr : hdr 0x1E#8 true false = 0x9E#8 ∧ hdr 0x1E#8 true true = 0xDE#8 ∧ hdr 0x1E#8 false false = 0x1E#8 ∧
    hdr 0x1E#8 false true = 0x5E#8 ∧ hdr 0x45#8 true false = 0xC5#8 ∧ hdr 0xFF#8 true true = 0xFF#8 := by decide

/-! ### Vectors of the four operations -/

/-- V4: position 0 is dropped though it differs from the header. -/
theorem test_rdb_V4 : framesOf (exchange 0x003F0000#32 [] [0x12#8, 0x34#8]) = [[0xBF#8, 0x00#8]] ∧
    responsesOf (exchange 0x003F0000#32 [] [0x12#8, 0x34#8]) = [⟨.ok, [0x34#8]⟩] := by decide

/-- V10: an empty burst still transmits the header. -/
theorem test_rdn_V10 : framesOf (exchange 0x40000000#32 [] [0x77#8]) = [[0xC0#8]] ∧
    responsesOf (exchange 0x40000000#32 [] [0x77#8]) = [⟨.ok, []⟩] := by decide

/-- V14: six bytes in the order received. -/
theorem test_rdn_V14 :
    framesOf (exchange 0x40320006#32 [] [0x00#8, 0x10#8, 0x00#8, 0xF0#8, 0xFF#8, 0x05#8, 0x01#8]) =
      [[0xF2#8, 0x00#8, 0x00#8, 0x00#8, 0x00#8, 0x00#8, 0x00#8]] ∧
    responsesOf (exchange 0x40320006#32 [] [0x00#8, 0x10#8, 0x00#8, 0xF0#8, 0xFF#8, 0x05#8, 0x01#8]) =
      [⟨.ok, [0x10#8, 0x00#8, 0xF0#8, 0xFF#8, 0x05#8, 0x01#8]⟩] := by decide

/-- V23: a value that looks like a header is data. -/
theorem test_wrb_V23 : framesOf (exchange 0x80310080#32 [] [0x00#8, 0x00#8]) = [[0x31#8, 0x80#8]] ∧
    responsesOf (exchange 0x80310080#32 [] [0x00#8, 0x00#8]) = [⟨.ok, []⟩] := by decide

/-- V38: a read frame through WRN; the register value that comes back is dropped. -/
theorem test_wrn_V38 : framesOf (exchange 0xC0000002#32 [0xAD#8, 0x00#8] [0x00#8, 0x08#8]) = [[0xAD#8, 0x00#8]] ∧
    responsesOf (exchange 0xC0000002#32 [0xAD#8, 0x00#8] [0x00#8, 0x08#8]) = [⟨.ok, []⟩] := by decide

/-- V32: an empty frame is one request all the same. -/
theorem test_wrn_V32 : framesOf (exchange 0xC0000000#32 [] []) = [[]] ∧
    responsesOf (exchange 0xC0000000#32 [] []) = [⟨.ok, []⟩] := by decide

/-- V18: a failed burst of three delivers three bytes, of which nothing is known. -/
theorem test_rdn_V18 : (responsesOf (step (waiting .rdn 0x1E#8 3#16 [0xDE#8, 0#8, 0#8, 0#8]
    [⟨.transferFailed, [0#8, 0#8, 0#8, 0#8]⟩]))).map (fun r => (r.status, r.data.length)) = [(.transferFailed, 3)] := by decide

/-- V25: a failed write delivers the status alone. -/
theorem test_wrb_V25 : responsesOf (step (waiting .wrb 0x31#8 0x000B#16 [0x31#8, 0x0B#8]
    [⟨.transferFailed, [0#8, 0#8]⟩])) = [⟨.transferFailed, []⟩] := by decide

/-! ### The refusals and their order -/

/-- V40 to V42. -/
theorem test_refusals_V40_V42 : responsesOf (attempt false 0x002D0000#32 []) = [⟨.noLink, []⟩] ∧
    responsesOf (attempt true 0x012D0000#32 []) = [⟨.badCmd, []⟩] ∧
    responsesOf (attempt true 0x202D0000#32 []) = [⟨.badCmd, []⟩] := by decide

/-- V43 to V45, V17, V36, V37. -/
theorem test_refusals_operands : responsesOf (attempt true 0x00400000#32 []) = [⟨.badAddr, []⟩] ∧
    responsesOf (attempt true 0x80800001#32 []) = [⟨.badAddr, []⟩] ∧
    responsesOf (attempt true 0x40C00001#32 []) = [⟨.badAddr, []⟩] ∧
    responsesOf (attempt true 0x40000021#32 []) = [⟨.badLen, []⟩] ∧
    responsesOf (attempt true 0xC0000022#32 (List.replicate 34 0#8)) = [⟨.badLen, []⟩] ∧
    responsesOf (attempt true 0xC0000003#32 [0x01#8, 0x02#8]) = [⟨.badLen, []⟩] := by decide

/-- V46 to V48: several checks fail, the first decides. -/
theorem test_refusals_order : responsesOf (attempt false 0x01400000#32 []) = [⟨.badCmd, []⟩] ∧
    responsesOf (attempt false 0x00400000#32 []) = [⟨.noLink, []⟩] ∧
    responsesOf (attempt true 0x40400021#32 []) = [⟨.badAddr, []⟩] := by decide

/-- V50, V35: the nearest accepted ones make their request. -/
theorem test_accepted_boundaries : (framesOf (attempt true 0x40000020#32 [])).map List.length = [33] ∧
    (framesOf (attempt true 0xC0000021#32 (List.replicate 33 0#8))).map List.length = [33] := by decide

/-- 00_scope R5 `passthrough`: an address above 0x3F goes out unmasked (30_encoding R52). -/
theorem test_passthrough : framesOf (step { ready [.command ⟨0x00450000#32, []⟩] [] with params := ⟨33, .passthrough⟩ }) =
    [[0xC5#8, 0x00#8]] := by decide

/-! ### From reset: the word that `withFetchWord` presents is what the step runs; the link is still unopened, so NO_LINK (R131) -/

theorem test_first_step_rdn : step (State.reset.withFetchWord 32 0x40320006) = exec (.rdn 0x32#8 6#16) State.reset := rfl

theorem test_first_step_is_refused_without_link :
    responsesOf (step (State.reset.withFetchWord 32 0xC0000002)) = [⟨.noLink, []⟩] ∧
    responsesOf (step (State.reset.withFetchWord 32 0x802D0008)) = [⟨.noLink, []⟩] := by decide

/-! ### The fixture DEV: 95_test_vectors P2, step 2 -/

theorem test_dev_P2 :
    (devExchange (devExchange ⟨Vector.replicate 64 0#8, 0x00#8⟩ [0x5E#8, 0x01#8, 0x02#8, 0x03#8]).1
      [0xDE#8, 0x00#8, 0x00#8, 0x00#8]).2 = [0x00#8, 0x01#8, 0x02#8, 0x03#8] := by decide

/-! ### Witnesses: states and operands that meet the hypotheses of the statements, each clause at a boundary of its range -/

/-- An open whose every step is confirmed, and one whose speed step fails to read back. -/
def goodTrace : OpenTrace := ⟨true, ⟨true, some 3, 1⟩, ⟨true, some 500000, 1⟩, ⟨true, some 8, 1⟩⟩
def badSpeed : OpenTrace := ⟨true, ⟨true, some 3, 1⟩, ⟨true, none, 1⟩, ⟨true, some 8, 1⟩⟩

/-- An idle block with an unopened link. -/
def unlinked (inputs : List Input) : State := { ready inputs [] with link := .unopened }

/-- EncodeOfDecodeIsTheCommand: both branches of its conclusion. -/
theorem witness_decodes : decode ⟨0xC0FF0001#32, [0x08#8]⟩ = .ok (.wrn 0xFF#8 1#16 [0x08#8]) ∧
    decode ⟨0x80FFFFFF#32, []⟩ = .ok (.wrb 0xFF#8 0xFF#8 0xFF#8) := by decide

/-- TopByteNamesTheOperation: its five clauses, the last with the top bytes next to a legal one. -/
theorem witness_top_bytes : (0x00FFFFFF#32 : Word) &&& 0xFF000000#32 = 0x00000000#32 ∧
    (0x40FFFFFF#32 : Word) &&& 0xFF000000#32 = 0x40000000#32 ∧ (0x80FFFFFF#32 : Word) &&& 0xFF000000#32 = 0x80000000#32 ∧
    (0xC0FFFFFF#32 : Word) &&& 0xFF000000#32 = 0xC0000000#32 ∧ (0xC1000000#32 : Word) &&& 0xFF000000#32 ≠ 0x00000000#32 ∧
    (0xC1000000#32 : Word) &&& 0xFF000000#32 ≠ 0x40000000#32 ∧ (0xC1000000#32 : Word) &&& 0xFF000000#32 ≠ 0x80000000#32 ∧
    (0xC1000000#32 : Word) &&& 0xFF000000#32 ≠ 0xC0000000#32 := by decide

/-- HeaderIsAddressOrFlags: the largest legal address. -/
theorem witness_header : (0x3F#8 : Byte).toNat ≤ 0x3F := by decide

/-- A command presented to an idle block, with what its step gives. -/
abbrev AcceptedBy (w : Word) (data : List Byte) (r : Request) : Prop :=
  (ready [.command ⟨w, data⟩] []).phase = .idle ∧ (ready [.command ⟨w, data⟩] []).params.wf ∧
  (ready [.command ⟨w, data⟩] []).params.addrPolicy = .refuse ∧
  ∃ t, step (ready [.command ⟨w, data⟩] []) = .next t ∧ t.phase = .wait ∧ t.inFlight = some r

/-- FlagPairOfEveryAcceptedFrame, FrameLengthOfEveryAcceptedCommand, AcceptLatchesTheFieldsOfTheWord: each operation, at the largest
address, and the frame lengths 0, 1 and the limit. -/
theorem witness_accepted_rdb : AcceptedBy 0x003F0000#32 [] ⟨[0xBF#8, 0#8], 2, 10000, 8⟩ :=
  ⟨rfl, by decide, rfl, _, rfl, rfl, rfl⟩
theorem witness_accepted_rdn_empty : AcceptedBy 0x403F0000#32 [] ⟨[0xFF#8], 1, 10000, 8⟩ :=
  ⟨rfl, by decide, rfl, _, rfl, rfl, rfl⟩
theorem witness_accepted_rdn_limit : AcceptedBy 0x403F0020#32 [] ⟨0xFF#8 :: List.replicate 32 0#8, 33, 10000, 8⟩ :=
  ⟨rfl, by decide, rfl, _, rfl, rfl, rfl⟩
theorem witness_accepted_wrb : AcceptedBy 0x803F00FF#32 [] ⟨[0x3F#8, 0xFF#8], 2, 10000, 8⟩ :=
  ⟨rfl, by decide, rfl, _, rfl, rfl, rfl⟩
theorem witness_accepted_wrn_empty : AcceptedBy 0xC0000000#32 [] ⟨[], 0, 10000, 8⟩ :=
  ⟨rfl, by decide, rfl, _, rfl, rfl, rfl⟩
theorem witness_accepted_wrn_one : AcceptedBy 0xC0000001#32 [0x7F#8] ⟨[0x7F#8], 1, 10000, 8⟩ :=
  ⟨rfl, by decide, rfl, _, rfl, rfl, rfl⟩

/-- RdbReadsOneByte, WrbWritesOneByte: the largest legal address with a successful answer; under `passthrough` the largest byte with
a failed one. -/
theorem witness_rdb_wrb_success : ∃ (s : State) (a b0 b1 : Byte) (later : List Answer),
    s.phase = .idle ∧ s.linkOk = true ∧ (s.params.addrPolicy = .refuse → a.toNat ≤ 0x3F) ∧
    s.answers = ⟨.success, [b0, b1]⟩ :: later :=
  ⟨ready [] [⟨.success, [0x12#8, 0xE5#8]⟩], 0x3F#8, 0x12#8, 0xE5#8, [], by decide⟩
theorem witness_rdb_wrb_failed : ∃ (s : State) (a b0 b1 : Byte) (later : List Answer),
    s.phase = .idle ∧ s.linkOk = true ∧ (s.params.addrPolicy = .refuse → a.toNat ≤ 0x3F) ∧
    s.answers = ⟨.transferFailed, [b0, b1]⟩ :: later :=
  ⟨{ ready [] [⟨.transferFailed, [0x12#8, 0xE5#8]⟩] with params := ⟨33, .passthrough⟩ }, 0xFF#8, 0x12#8, 0xE5#8, [], by decide⟩

/-- RdnReadsABurst: the empty burst with a successful answer, the longest with a failed one. -/
theorem witness_rdn_success : ∃ (s : State) (a b0 : Byte) (len : Half) (got : List Byte) (later : List Answer),
    s.phase = .idle ∧ s.linkOk = true ∧ (s.params.addrPolicy = .refuse → a.toNat ≤ 0x3F) ∧
    len.toNat + 1 ≤ s.params.maxFrame ∧ got.length = len.toNat ∧ s.answers = ⟨.success, b0 :: got⟩ :: later :=
  ⟨ready [] [⟨.success, [0x77#8]⟩], 0x3F#8, 0x77#8, 0#16, [], [], by decide⟩
theorem witness_rdn_failed : ∃ (s : State) (a b0 : Byte) (len : Half) (got : List Byte) (later : List Answer),
    s.phase = .idle ∧ s.linkOk = true ∧ (s.params.addrPolicy = .refuse → a.toNat ≤ 0x3F) ∧
    len.toNat + 1 ≤ s.params.maxFrame ∧ got.length = len.toNat ∧ s.answers = ⟨.transferFailed, b0 :: got⟩ :: later :=
  ⟨ready [] [⟨.transferFailed, 0x77#8 :: List.replicate 32 0#8⟩], 0x00#8, 0x77#8, 32#16, List.replicate 32 0#8, [], by decide⟩

/-- WrnSendsTheCallersBytes: the empty frame with a successful answer, the longest with a failed one. -/
theorem witness_wrn_success : ∃ (s : State) (len : Half) (data rx : List Byte) (later : List Answer),
    s.phase = .idle ∧ s.linkOk = true ∧ len.toNat = data.length ∧ len.toNat ≤ s.params.maxFrame ∧
    rx.length = data.length ∧ s.answers = ⟨.success, rx⟩ :: later :=
  ⟨ready [] [⟨.success, []⟩], 0#16, [], [], [], by decide⟩
theorem witness_wrn_failed : ∃ (s : State) (len : Half) (data rx : List Byte) (later : List Answer),
    s.phase = .idle ∧ s.linkOk = true ∧ len.toNat = data.length ∧ len.toNat ≤ s.params.maxFrame ∧
    rx.length = data.length ∧ s.answers = ⟨.transferFailed, rx⟩ :: later :=
  ⟨ready [] [⟨.transferFailed, List.replicate 33 1#8⟩], 33#16, List.replicate 33 0#8, List.replicate 33 1#8, [], by decide⟩

/-- StepRunsTheDecodedCommand. -/
theorem witness_step : (ready [.command ⟨0x002D0000#32, []⟩] []).phase = .idle ∧
    (ready [.command ⟨0x002D0000#32, []⟩] []).inputs = .command ⟨0x002D0000#32, []⟩ :: [] ∧
    decode ⟨0x002D0000#32, []⟩ = .ok (.rdb 0x2D#8 0#16) := by decide

/-- ChecksRunInOrder: the presentation every clause starts from. -/
theorem witness_checks (up : Bool) (w : Word) (data : List Byte) :
    (presented up w data).phase = .idle ∧ (presented up w data).inputs = .command ⟨w, data⟩ :: [] := ⟨rfl, rfl⟩

/-- Its clauses, one word each, at the boundaries of the address and of the length. -/
theorem witness_checks_badCmd : (0x3F000000#32 : Word).extractLsb' 24 6 ≠ 0#6 := by decide
theorem witness_checks_noLink : (0x003F0000#32 : Word).extractLsb' 24 6 = 0#6 ∧
    (presented false 0x003F0000#32 []).linkOk = false := by decide
theorem witness_checks_badAddr : (0x80400000#32 : Word).extractLsb' 24 6 = 0#6 ∧
    (presented true 0x80400000#32 []).linkOk = true ∧ (0x80400000#32 : Word).extractLsb' 30 2 ≠ 3#2 ∧
    (presented true 0x80400000#32 []).params.addrPolicy = .refuse ∧
    0x3F < ((0x80400000#32 : Word).extractLsb' 16 8).toNat := by decide
theorem witness_checks_badLen_rdn : (0x403F0021#32 : Word).extractLsb' 24 6 = 0#6 ∧
    (presented true 0x403F0021#32 []).linkOk = true ∧ ¬(0x3F < ((0x403F0021#32 : Word).extractLsb' 16 8).toNat) ∧
    (0x403F0021#32 : Word).extractLsb' 30 2 = 1#2 ∧
    (presented true 0x403F0021#32 []).params.maxFrame < ((0x403F0021#32 : Word).extractLsb' 0 16).toNat + 1 := by decide
theorem witness_checks_badLen_wrn : (0xC0000022#32 : Word).extractLsb' 24 6 = 0#6 ∧
    (presented true 0xC0000022#32 []).linkOk = true ∧ (0xC0000022#32 : Word).extractLsb' 30 2 = 3#2 ∧
    (presented true 0xC0000022#32 []).params.maxFrame < ((0xC0000022#32 : Word).extractLsb' 0 16).toNat ∧
    ((0xC0000003#32 : Word).extractLsb' 0 16).toNat ≠ [0x01#8, 0x02#8].length := by decide
theorem witness_checks_accepted : (0x403F0020#32 : Word).extractLsb' 24 6 = 0#6 ∧
    (presented true 0x403F0020#32 []).linkOk = true ∧ ¬(0x3F < ((0x403F0020#32 : Word).extractLsb' 16 8).toNat) ∧
    ¬((presented true 0x403F0020#32 []).params.maxFrame < ((0x403F0020#32 : Word).extractLsb' 0 16).toNat + 1) ∧
    (0x403F0020#32 : Word).extractLsb' 30 2 ≠ 3#2 := by decide

/-- RefusalLeavesNoTrace, LatchIsNotReadWhileIdle. -/
theorem witness_refused : (ready [.command ⟨0x00400000#32, []⟩] []).phase = .idle ∧
    ∃ t, step (ready [.command ⟨0x00400000#32, []⟩] []) = .next t ∧ t.phase = .idle := ⟨rfl, _, rfl, rfl⟩

/-- IgnoredFieldsHaveNoEffect: a waiting block whose operation is not RDN. -/
theorem witness_ignored : (waiting .rdb 0x2D#8 0#16 [0xAD#8, 0#8] []).phase = .wait ∧
    (waiting .rdb 0x2D#8 0#16 [0xAD#8, 0#8] []).cOp ≠ .rdn := by decide

/-- CompleteDeliversTheTable, EveryStepKeepsTheInvariant: the invariant holds while an exchange is in flight, whatever the operation. -/
theorem waiting_inv {op : Op} {addr : Byte} {arg : Half} {tx : List Byte} {answers : List Answer} (ha : addr.toNat ≤ 0x3F)
    (hl : tx.length ≤ 33) (hf : frameOfLatch (waiting op addr arg tx answers) tx) : Inv (waiting op addr arg tx answers) where
  params_wf := ⟨Nat.le_refl 33, (by decide : 33 ≤ 65536)⟩
  waiting_iff := by simp [waiting]
  inFlight_wf := by intro r hr; cases hr; exact ⟨rfl, hl, rfl, rfl⟩
  inFlight_latched := by intro r hr; cases hr; exact hf
  inFlight_addr := fun _ _ _ => ha
  inFlight_link := fun _ => rfl
  inFlight_last := by intro _; rfl
  requests_wf := by
    intro r hr
    simp [waiting, ready, State.reset] at hr
    subst hr; exact ⟨rfl, hl, rfl, rfl⟩
  refusals_empty := by intro p hp; simp [waiting, ready, State.reset] at hp

/-- CompleteDeliversTheTable, FailureLeavesWhatSuccessLeaves: all hypotheses together, for each operation. -/
abbrev Answered (s : State) (req : Request) (ans : Answer) : Prop :=
  Inv s ∧ s.phase = .wait ∧ s.inFlight = some req ∧ ans.rx.length = req.flen ∧ s.answers = ans :: []

theorem witness_complete_rdb :
    Answered (waiting .rdb 0x3F#8 0#16 [0xBF#8, 0#8] [⟨.success, [0x12#8, 0x34#8]⟩]) ⟨[0xBF#8, 0#8], 2, 10000, 8⟩
      ⟨.success, [0x12#8, 0x34#8]⟩ :=
  ⟨waiting_inv (by decide) (by decide) (by exact rfl), rfl, rfl, rfl, rfl⟩
theorem witness_complete_rdn :
    Answered (waiting .rdn 0x3F#8 0#16 [0xFF#8] [⟨.transferFailed, [0x12#8]⟩]) ⟨[0xFF#8], 1, 10000, 8⟩
      ⟨.transferFailed, [0x12#8]⟩ :=
  ⟨waiting_inv (by decide) (by decide) (by exact rfl), rfl, rfl, rfl, rfl⟩
theorem witness_complete_wrb :
    Answered (waiting .wrb 0x3F#8 0x00FF#16 [0x3F#8, 0xFF#8] [⟨.success, [0x12#8, 0x34#8]⟩]) ⟨[0x3F#8, 0xFF#8], 2, 10000, 8⟩
      ⟨.success, [0x12#8, 0x34#8]⟩ :=
  ⟨waiting_inv (by decide) (by decide) (by exact rfl), rfl, rfl, rfl, rfl⟩
theorem witness_complete_wrn :
    Answered (waiting .wrn 0x00#8 0#16 [] [⟨.transferFailed, []⟩]) ⟨[], 0, 10000, 8⟩ ⟨.transferFailed, []⟩ :=
  ⟨waiting_inv (by decide) (by decide) (by exact rfl), rfl, rfl, rfl, rfl⟩

/-- DroppedPositionsHaveNoEffect: both writes. -/
theorem witness_dropped : (waiting .wrb 0x3F#8 0x00FF#16 [0x3F#8, 0xFF#8] []).phase = .wait ∧
    (waiting .wrb 0x3F#8 0x00FF#16 [0x3F#8, 0xFF#8] []).inFlight = some ⟨[0x3F#8, 0xFF#8], 2, 10000, 8⟩ ∧
    (waiting .wrb 0x3F#8 0x00FF#16 [0x3F#8, 0xFF#8] []).cOp = .wrb ∧ [0x12#8, 0x34#8].length = [0x56#8, 0x78#8].length ∧
    (waiting .wrn 0x00#8 1#16 [0x08#8] []).phase = .wait ∧
    (waiting .wrn 0x00#8 1#16 [0x08#8] []).inFlight = some ⟨[0x08#8], 1, 10000, 8⟩ ∧
    (waiting .wrn 0x00#8 1#16 [0x08#8] []).cOp = .wrn ∧ [0x12#8].length = [0x34#8].length := by decide

/-- WithheldAnswerHangsForEver, HostHasNoMoveWhileWaiting; IdleWithNothingPresentedIsFinal. -/
theorem witness_withheld : (waiting .rdb 0x3F#8 0#16 [0xBF#8, 0#8] []).phase = .wait ∧
    (waiting .rdb 0x3F#8 0#16 [0xBF#8, 0#8] []).answers = [] ∧ (ready [] []).phase = .idle ∧ (ready [] []).inputs = [] := by decide

/-- EveryCommandGetsOneResponse, EveryAcceptedCommandMakesOneExchange, RecordsOnlyGrow, RequestsCarryTheConstants: a run of two steps
that answers a next state, over a configured link. -/
theorem witness_run : (∃ t, Host.Core.run Sys2Proof.core 2
      (ready [.command ⟨0x002D0000#32, []⟩] [⟨.success, [0xFF#8, 0x08#8]⟩]) = .next t) ∧
    (ready [] []).link = .configured link0.resource := ⟨⟨_, rfl⟩, rfl⟩

/-- EveryStepKeepsTheInvariant: a step from a state with the invariant. -/
theorem witness_keeps : ∃ t, step (waiting .rdb 0x3F#8 0#16 [0xBF#8, 0#8] [⟨.success, [0x12#8, 0x34#8]⟩]) = .next t := ⟨_, rfl⟩

/-- StopsAreBrokenContractsOnly: each of the four stops is reached. -/
theorem witness_stops :
    step (waiting .rdb 0x3F#8 0#16 [0xBF#8, 0#8] [⟨.success, [0x12#8]⟩]) = .fault .answerBreaksContract ∧
    step { ready [.closeLink] [] with link := .closed } = .fault .doubleClose ∧
    step (unlinked [.closeLink]) = .fault .closeWithoutHandle ∧
    step (ready [.openLink link0 goodTrace] []) = .refused .secondHandle := ⟨rfl, rfl, rfl, rfl⟩

/-- OpenConfiguresAllOrFails, OpenAndCloseMakeNoExchange: each clause of the configuration steps. -/
theorem witness_open : (unlinked []).phase = .idle ∧ (unlinked []).linkOk = false ∧
    (unlinked [.openLink link0 goodTrace, .closeLink]).inputs = .openLink link0 goodTrace :: .closeLink :: [] ∧
    goodTrace.nodeOpens = true ∧ goodTrace.mode.good link0.config.mode ∧ goodTrace.speed.good link0.config.speedHz ∧
    goodTrace.wordSize.good link0.config.wordBits ∧ badSpeed.mode.good link0.config.mode ∧ badSpeed.speed.bad ∧
    (⟨false, some 3, 1⟩ : ConfigTry (Fin 4)).bad ∧ ({ goodTrace with nodeOpens := false } : OpenTrace).nodeOpens = false ∧
    ([.command ⟨0#32, []⟩, .closeLink] : List Input).any Input.isOpen = false := by decide

/-- OpenAndCloseMakeNoExchange: a run after the failed open. -/
theorem witness_failed_open : ∃ t, Host.Core.run Sys2Proof.core (1 + 1)
    (unlinked [.openLink link0 badSpeed, .command ⟨0x002D0000#32, []⟩]) = .next t := ⟨_, rfl⟩

/-- CloseEndsTheLink: with a second close behind the first. -/
theorem witness_close : (ready [.closeLink, .closeLink] []).phase = .idle ∧
    (ready [.closeLink, .closeLink] []).link = .configured link0.resource ∧
    (ready [.closeLink, .closeLink] []).inputs = .closeLink :: [.closeLink] := by decide

/-- OnlyAnOpenWritesTheLinkRegisters: a failed open that changes a register. -/
theorem witness_registers : ∃ t, step { unlinked [.openLink link0 badSpeed] with linkConfig := ⟨0, 0, 0⟩ } = .next t ∧
    t.linkConfig = ⟨1, 3, 0⟩ ∧ t.linkConfig ≠ ⟨0, 0, 0⟩ := ⟨_, rfl, rfl, by decide⟩

/-- NoExchangeWithoutAnOpen: a run of an unopened link with a command presented. -/
theorem witness_no_open : (unlinked [.command ⟨0x002D0000#32, []⟩]).phase = .idle ∧
    (unlinked [.command ⟨0x002D0000#32, []⟩]).linkOk = false ∧
    (unlinked [.command ⟨0x002D0000#32, []⟩]).inputs.any Input.isOpen = false ∧
    ∃ t, Host.Core.run Sys2Proof.core 3 (unlinked [.command ⟨0x002D0000#32, []⟩]) = .next t := ⟨rfl, rfl, rfl, _, rfl⟩

/-- A device for the round trips. -/
def dev0 : Dev := ⟨Vector.replicate 64 0#8, 0xFF#8⟩

/-- EchoDeviceRoundTrip: the largest address and value. -/
theorem witness_echo : ∃ (s : State) (a v : Byte) (rest : List Input) (later : List Answer),
    s.phase = .idle ∧ s.linkOk = true ∧ a.toNat ≤ 0x3F ∧
    s.inputs = .command (encode (.wrb a 0x00#8 v)) :: .command (encode (.rdb a 0x0000#16)) :: rest ∧
    s.answers = ⟨.success, (devExchange dev0 [a, v]).2⟩ ::
      ⟨.success, (devExchange (devExchange dev0 [a, v]).1 [a ||| 0x80#8, 0x00#8]).2⟩ :: later :=
  ⟨ready [.command (encode (.wrb 0x3F#8 0x00#8 0xFF#8)), .command (encode (.rdb 0x3F#8 0x0000#16))]
      [⟨.success, (devExchange dev0 [0x3F#8, 0xFF#8]).2⟩,
        ⟨.success, (devExchange (devExchange dev0 [0x3F#8, 0xFF#8]).1 [0x3F#8 ||| 0x80#8, 0x00#8]).2⟩],
    0x3F#8, 0xFF#8, [], [], rfl, rfl, by decide, rfl, rfl⟩

/-- EchoDeviceBurstRoundTrip: a burst of 64 bytes, the longest, from the largest address, so that it wraps in the device. -/
theorem witness_echo_burst : ∃ (s : State) (a : Byte) (data : List Byte) (n : Half) (rest : List Input) (later : List Answer),
    s.phase = .idle ∧ s.linkOk = true ∧ a.toNat ≤ 0x3F ∧ n.toNat = data.length ∧ data.length ≤ 64 ∧
    data.length + 1 ≤ s.params.maxFrame ∧
    s.inputs = .command (encode (.wrn 0x00#8 (n + 1#16) ((a ||| 0x40#8) :: data))) :: .command (encode (.rdn a n)) :: rest ∧
    s.answers = ⟨.success, (devExchange dev0 ((a ||| 0x40#8) :: data)).2⟩ ::
      ⟨.success, (devExchange (devExchange dev0 ((a ||| 0x40#8) :: data)).1
        ((a ||| 0xC0#8) :: List.replicate data.length 0x00#8)).2⟩ :: later :=
  ⟨{ ready
      [.command (encode (.wrn 0x00#8 (64#16 + 1#16) ((0x3F#8 ||| 0x40#8) :: List.replicate 64 0x5A#8))),
        .command (encode (.rdn 0x3F#8 64#16))]
      [⟨.success, (devExchange dev0 ((0x3F#8 ||| 0x40#8) :: List.replicate 64 0x5A#8)).2⟩,
        ⟨.success, (devExchange (devExchange dev0 ((0x3F#8 ||| 0x40#8) :: List.replicate 64 0x5A#8)).1
          ((0x3F#8 ||| 0xC0#8) :: List.replicate (List.replicate 64 (0x5A#8 : Byte)).length 0x00#8)).2⟩]
      with params := ⟨65, .refuse⟩ },
    0x3F#8, List.replicate 64 0x5A#8, 64#16, [], [], rfl, rfl, by decide, rfl, by decide, by decide, rfl, rfl⟩

end Sys2Proof.Tests
end

section
/-! PROOFS of the family 10_state: the invariant, ACCEPT, COMPLETE, whole runs, reset. -/

namespace Sys2Proof.Machine

/-! ### Facts about the operations that several proofs need -/

/-- The frame of an accepted instruction is the one its latched operands say (30_encoding R53). -/
theorem frameOfLatch_accept {i : Instr} {s : State} (hc : firstFailure (checksOf s i) = none) :
    frameOfLatch (accept i.op i.addr i.arg (frameOf i) s) (frameOf i) := by
  cases i with
  | rdb a x => exact frameRdb_eq a
  | rdn a len => exact frameRdn_eq a len
  | wrb a x v => exact (frameWrb_eq a v).trans (congrArg (fun b => [a, b]) (argLow_append x v).symm)
  | wrn x len data => exact frameOf_length hc

/-- An accepted WRN sends DATA itself (41_write R81). -/
theorem frameOf_wrn {i : Instr} {s : State} (hc : firstFailure (checksOf s i) = none) (hop : i.op = .wrn) :
    frameOf i = i.data := by
  cases i with
  | rdb | rdn | wrb => cases hop
  | wrn x len data => exact List.take_of_length_le (Nat.le_of_eq (checkWriteLen_none.1 (firstFailure_eq_none.1 hc
      (checkWriteLen s.params len data) (by simp [checksOf]))).2.symm)

/-- The request of an accepted instruction is well formed (10_state R17, 30_encoding R57). -/
theorem requestFor_frameOf_wf {i : Instr} {s : State} (hp : s.params.wf) (hc : firstFailure (checksOf s i) = none) :
    (requestFor (frameOf i)).wf s.params :=
  ⟨rfl, (frameOf_length hc).trans_le (frameLen_le hp hc), rfl, rfl⟩

/-- Under `refuse` an accepted address operand is legal (10_state R18). -/
theorem addr_le_of_checks {i : Instr} {s : State} (hc : firstFailure (checksOf s i) = none)
    (hr : s.params.addrPolicy = .refuse) (hop : i.op ≠ .wrn) : i.addr.toNat ≤ 0x3F := by
  have hmem : checkAddr s.params i.addr ∈ checksOf s i := by
    cases i with
    | rdb | rdn | wrb => simp [checksOf, Instr.addr]
    | wrn => exact absurd rfl hop
  exact checkAddr_none.1 (firstFailure_eq_none.1 hc _ hmem) hr

/-- COMPLETE reads of an answer its result and the bytes the operation returns. -/
theorem complete_congr {ans ans' : Answer} {s : State} (hres : ans.res = ans'.res)
    (hrx : returnedBytes s.cOp s.cArg ans.rx = returnedBytes s.cOp s.cArg ans'.rx) : complete ans s = complete ans' s := by
  rw [complete_eq, complete_eq, hres, hrx]

@[simp] theorem complete_phase (ans : Answer) (s : State) : (complete ans s).phase = .idle := by simp [complete_eq]
@[simp] theorem complete_params (ans : Answer) (s : State) : (complete ans s).params = s.params := by simp [complete_eq]
@[simp] theorem complete_inFlight (ans : Answer) (s : State) : (complete ans s).inFlight = none := by simp [complete_eq]
@[simp] theorem complete_link (ans : Answer) (s : State) : (complete ans s).link = s.link := by simp [complete_eq]
@[simp] theorem complete_linkConfig (ans : Answer) (s : State) : (complete ans s).linkConfig = s.linkConfig := by
  simp [complete_eq]
@[simp] theorem complete_inputs (ans : Answer) (s : State) : (complete ans s).inputs = s.inputs := by simp [complete_eq]
@[simp] theorem complete_requests (ans : Answer) (s : State) : (complete ans s).requests = s.requests := by
  simp [complete_eq]

/-- COMPLETE delivers one response, and its status reports the exchange. -/
theorem complete_responses (ans : Answer) (s : State) :
    ∃ p : Response, p.status.exchanged = true ∧ (complete ans s).responses = s.responses ++ [p] := by
  rw [complete_eq]
  cases ans.res with
  | success => exact ⟨⟨.ok, _⟩, rfl, rfl⟩
  | transferFailed => exact ⟨⟨.transferFailed, _⟩, rfl, rfl⟩

/-! ### The invariant (O31, O32) -/

theorem Inv.inFlight_none {s : State} (h : Inv s) (hp : s.phase = .idle) : s.inFlight = none := by
  have hw := h.waiting_iff
  simpa [hp] using hw

/-- In IDLE without an exchange the invariant is about the parameters and the records alone. -/
theorem inv_of_idle {s : State} (hw : s.params.wf) (hp : s.phase = .idle) (hf : s.inFlight = none)
    (hreq : ∀ r ∈ s.requests, r.wf s.params)
    (hresp : ∀ p ∈ s.responses, p.status.exchanged = false → p.data = []) : Inv s where
  params_wf := hw
  waiting_iff := by simp [hp, hf]
  inFlight_wf := by simp [hf]
  inFlight_latched := by simp [hf]
  inFlight_addr := by simp [hf]
  inFlight_link := by simp [hf]
  inFlight_last := by simp [hf]
  requests_wf := hreq
  refusals_empty := hresp

theorem inv_refuse {s : State} (h : Inv s) (hp : s.phase = .idle) (st : Status) (rest : List Input) :
    Inv (refuse st { s with inputs := rest }) := by
  refine inv_of_idle h.params_wf hp (h.inFlight_none hp) h.requests_wf fun p hmem hex => ?_
  rcases List.mem_append.1 hmem with hold | hnew
  · exact h.refusals_empty p hold hex
  · rw [List.mem_singleton.1 hnew]

theorem inv_accept {s : State} {i : Instr} (h : Inv s) (rest : List Input)
    (hc : firstFailure (checksOf { s with inputs := rest } i) = none) :
    Inv (accept i.op i.addr i.arg (frameOf i) { s with inputs := rest }) where
  params_wf := h.params_wf
  waiting_iff := by simp
  inFlight_wf := by
    rintro r ⟨⟩
    exact requestFor_frameOf_wf h.params_wf hc
  inFlight_latched := by
    rintro r ⟨⟩
    exact frameOfLatch_accept hc
  inFlight_addr := fun _ hr hop => addr_le_of_checks hc hr hop
  inFlight_link := fun _ => linkOk_of_checks hc
  inFlight_last := by simp
  requests_wf := fun r hmem => by
    rcases List.mem_append.1 hmem with hold | hnew
    · exact h.requests_wf r hold
    · rw [List.mem_singleton.1 hnew]
      exact requestFor_frameOf_wf h.params_wf hc
  refusals_empty := h.refusals_empty

theorem inv_complete {s : State} (h : Inv s) (ans : Answer) (later : List Answer) :
    Inv (complete ans { s with answers := later }) := by
  refine inv_of_idle (by simpa using h.params_wf) (complete_phase ..) (complete_inFlight ..)
    (by simpa using h.requests_wf) fun p hmem hex => ?_
  obtain ⟨q, hq, hresp⟩ := complete_responses ans { s with answers := later }
  rw [hresp] at hmem
  rcases List.mem_append.1 hmem with hold | hnew
  · exact h.refusals_empty p hold hex
  · rw [List.mem_singleton.1 hnew, hq] at hex
    cases hex

/-- Settles O32: the new state of every case of a step has the invariant. -/
theorem everyStepKeepsTheInvariant : Obligations.EveryStepKeepsTheInvariant := by
  intro s t h hstep
  cases step_cases hstep with
  | stays why ht => exact ht ▸ h
  | refuses c rest st hp hi hs hn ht => exact ht ▸ inv_refuse h hp st rest
  | accepts c rest i hp hi hd hc ht => exact ht ▸ inv_accept h rest hc
  | opens w tr rest hp hi hl ht =>
    exact ht ▸ inv_of_idle h.params_wf hp (h.inFlight_none hp) h.requests_wf h.refusals_empty
  | closes rest hp hi hl ht =>
    exact ht ▸ inv_of_idle h.params_wf hp (h.inFlight_none hp) h.requests_wf h.refusals_empty
  | completes req ans later hp hf ha hlen ht => exact ht ▸ inv_complete h ans later

theorem config_maxFrame_range : 33 ≤ Config.maxFrame ∧ Config.maxFrame ≤ 65536 := by
  have hlt := Config.frameStoreChoice.isLt
  unfold Config.maxFrame
  omega

/-- Settles O31: reset is idle, with empty records. -/
theorem resetMeetsTheInvariant : Obligations.ResetMeetsTheInvariant :=
  inv_of_idle config_maxFrame_range rfl rfl (fun _ hr => nomatch hr) (fun _ hp => nomatch hp)

/-- Settles O30: every part but the range of MAX_FRAME is reset's own value. -/
theorem resetLeavesAnIdleBlock : Obligations.ResetLeavesAnIdleBlock :=
  ⟨rfl, rfl, rfl, rfl, rfl, rfl, config_maxFrame_range.1, config_maxFrame_range.2, rfl⟩

/-! ### ACCEPT (O12, O13) -/

/-- Settles O12: a decoded command hands the step to `exec`. -/
theorem stepRunsTheDecodedCommand : Obligations.StepRunsTheDecodedCommand :=
  fun _ _ _ _ hp hi hd => step_idle_ok hp hi hd

/-- Settles O13: the accepted state latches the decoded instruction's fields, which are the word's. -/
theorem acceptLatchesTheFieldsOfTheWord : Obligations.AcceptLatchesTheFieldsOfTheWord := by
  intro s t c rest hp hi hstep hw
  obtain ⟨i, hd, hc, rfl⟩ := step_accepted hp hi hstep hw
  obtain ⟨_, hop, haddr, harg, hdata, _⟩ := decode_ok hd
  have hcode : i.op.code = opField c.word := by rw [hop, code_ofCode]
  exact ⟨hcode, haddr, harg, requestFor (frameOf i), rfl, rfl, rfl, frameOfLatch_accept hc,
    fun hwrn => (frameOf_wrn hc hwrn).trans (hdata hwrn), rfl⟩

/-! ### What a step in IDLE reads -/

/-- `s'` stands beside the idle state `s` so that each move made from both ends in states that `g` relates: the moves
read the same parameters and link, and `g` commutes with what they write. -/
structure IdleAgrees (g : State → State) (s s' : State) : Prop where
  phase : s'.phase = s.phase
  inputs : s'.inputs = s.inputs
  params : s'.params = s.params
  link : s'.link = s.link
  stays : s' = g s
  refuse : ∀ st rest, refuse st { s' with inputs := rest } = g (refuse st { s with inputs := rest })
  accept : ∀ op a arg tx rest,
    accept op a arg tx { s' with inputs := rest } = g (accept op a arg tx { s with inputs := rest })
  opened : ∀ w tr rest, opened w tr { s' with inputs := rest } = g (opened w tr { s with inputs := rest })
  closed : ∀ rest, { s' with inputs := rest, link := .closed } = g { s with inputs := rest, link := .closed }

/-- The checks read the parameters and the link. -/
theorem checksOf_congr {s s' : State} (hp : s'.params = s.params) (hl : s'.link = s.link) (i : Instr) :
    checksOf s' i = checksOf s i := by
  have hk : checkLink s' = checkLink s := by unfold checkLink State.linkOk; rw [hl]
  cases i <;> simp only [checksOf, hp, hk]

theorem exec_mapNext {g : State → State} {s s' : State} (hp : s'.params = s.params) (hl : s'.link = s.link)
    (hr : ∀ st, refuse st s' = g (refuse st s))
    (ha : ∀ op a arg tx, accept op a arg tx s' = g (accept op a arg tx s)) (i : Instr) :
    exec i s' = mapNext g (exec i s) := by
  rw [exec_eq, exec_eq, checksOf_congr hp hl]
  cases firstFailure (checksOf s i) with
  | none => exact congrArg Host.Outcome.next (ha ..)
  | some st => exact congrArg Host.Outcome.next (hr st)

theorem openLink_mapNext {g : State → State} {s s' : State} {w : BusHandle} {tr : OpenTrace} (hl : s'.link = s.link)
    (ho : opened w tr s' = g (opened w tr s)) : openLink w tr s' = mapNext g (openLink w tr s) := by
  unfold openLink
  rw [hl, ho]
  cases s.link <;> rfl

theorem closeLink_mapNext {g : State → State} {s s' : State} (hl : s'.link = s.link)
    (hc : { s' with link := .closed } = g { s with link := .closed }) : closeLink s' = mapNext g (closeLink s) := by
  unfold closeLink
  rw [hl, hc]
  cases s.link <;> rfl

/-- A step in IDLE from states that agree for every move. -/
theorem step_idle_mapNext {g : State → State} {s s' : State} (hp : s.phase = .idle) (h : IdleAgrees g s s') :
    step s' = mapNext g (step s) := by
  have hp' := h.phase.trans hp
  match hi : s.inputs with
  | [] =>
    rw [step_idle_nil hp hi, step_idle_nil hp' (h.inputs.trans hi)]
    exact congrArg Host.Outcome.next h.stays
  | .command c :: rest =>
    cases hd : decode c with
    | reservedBits =>
      rw [step_idle_reserved hp hi hd, step_idle_reserved hp' (h.inputs.trans hi) hd]
      exact congrArg Host.Outcome.next (h.refuse ..)
    | ok i =>
      rw [step_idle_ok hp hi hd, step_idle_ok hp' (h.inputs.trans hi) hd]
      exact exec_mapNext (s := { s with inputs := rest }) (s' := { s' with inputs := rest }) h.params h.link
        (h.refuse · rest) (h.accept · · · · rest) i
  | .openLink w tr :: rest =>
    rw [step_idle_open hp hi, step_idle_open hp' (h.inputs.trans hi)]
    exact openLink_mapNext h.link (h.opened ..)
  | .closeLink :: rest =>
    rw [step_idle_close hp hi, step_idle_close hp' (h.inputs.trans hi)]
    exact closeLink_mapNext h.link (h.closed rest)

/-- Another content of the latch, where the next state still shows it: ACCEPT overwrites it. -/
def latchIfIdle (op : Op) (a : Byte) (arg : Half) (t : State) : State :=
  if t.phase = .wait then t else withLatch op a arg t

theorem latchIfIdle_idle {op : Op} {a : Byte} {arg : Half} {t : State} (hp : t.phase = .idle) :
    latchIfIdle op a arg t = withLatch op a arg t := if_neg (by simp [hp])

theorem latchIfIdle_wait {op : Op} {a : Byte} {arg : Half} {t : State} (hp : t.phase = .wait) :
    latchIfIdle op a arg t = t := if_pos hp

/-- Settles O18: the checks do not read the latch, and ACCEPT overwrites it. -/
theorem latchIsNotReadWhileIdle : Obligations.LatchIsNotReadWhileIdle := by
  intro s op a arg hp
  refine step_idle_mapNext (g := latchIfIdle op a arg) (s' := withLatch op a arg s) hp
    { phase := rfl, inputs := rfl, params := rfl, link := rfl
      stays := (latchIfIdle_idle hp).symm
      refuse := fun st rest => ?_
      accept := fun op' a' arg' tx rest => ?_
      opened := fun w tr rest => ?_
      closed := fun rest => ?_ }
  · exact (latchIfIdle_idle (t := refuse st { s with inputs := rest }) hp).symm
  · exact (latchIfIdle_wait (t := accept op' a' arg' tx { s with inputs := rest }) rfl).symm
  · exact (latchIfIdle_idle (t := opened w tr { s with inputs := rest }) hp).symm
  · exact (latchIfIdle_idle (t := { s with inputs := rest, link := .closed }) hp).symm

/-- COMPLETE only appends to the past. -/
theorem complete_withPast (ps : List Response) (rs : List Request) (ans : Answer) (s : State) :
    complete ans (withPast ps rs s) = withPast ps rs (complete ans s) := by
  rw [complete_eq, complete_eq]
  cases ans.res <;> simp [finishFailed, finish, respond, withPast]

/-- Settles O19: every operation only appends to the records. -/
theorem pastIsNeverRead : Obligations.PastIsNeverRead := by
  intro s ps rs
  cases hp : s.phase with
  | idle =>
    exact step_idle_mapNext hp
      { phase := rfl, inputs := rfl, params := rfl, link := rfl, stays := rfl
        refuse := fun st rest => by simp [refuse, respond, withPast]
        accept := fun op a arg tx rest => by simp [accept, withPast]
        opened := fun _ _ _ => rfl
        closed := fun _ => rfl }
  | wait =>
    exact step_wait_mapNext (withPast ps rs) s hp rfl rfl rfl fun ans later =>
      complete_withPast ps rs ans { s with answers := later }

/-! ### COMPLETE (O20, O22, O24) -/

/-- The outstanding exchange has the length of the latched command (30_encoding R57). -/
theorem Inv.flen_eq {s : State} {req : Request} (h : Inv s) (hf : s.inFlight = some req) :
    req.flen = frameLen s.cOp s.cArg := by
  rw [← (h.inFlight_wf req hf).1]
  have hl := h.inFlight_latched req hf
  unfold frameOfLatch at hl
  cases hop : s.cOp <;> rw [hop] at hl <;> simp [frameLen, hl]

/-- A receive frame of the command's length holds every byte the command returns. -/
theorem returnedBytes_length {op : Op} {arg : Half} {rx : List Byte} (h : rx.length = frameLen op arg) :
    (returnedBytes op arg rx).length = returnedLen op arg := by
  cases op <;> simp [returnedBytes, slice, returnedLen, frameLen] at h ⊢ <;> omega

/-- The byte returned at `k` is the one received at position `k + 1` (20_memory R36). -/
theorem returnedBytes_getElem? {op : Op} {arg : Half} {rx : List Byte} {k : Nat}
    (hk : k < (returnedBytes op arg rx).length) : (returnedBytes op arg rx)[k]? = rx[k + 1]? := by
  cases rx with
  | nil => cases op <;> simp [returnedBytes, slice] at hk
  | cons b rx =>
    rw [returnedBytes_cons] at hk ⊢
    rw [List.getElem?_take_of_lt (by simp at hk; omega), List.getElem?_cons_succ]

/-- Settles O20: the invariant gives the received frame the latched command's length. -/
theorem completeDeliversTheTable : Obligations.CompleteDeliversTheTable := by
  intro s req rx later h hp hf hlen
  have hcomplete (res : XferResult) (ha : s.answers = ⟨res, rx⟩ :: later) :
      step s = .next (finishWith res (returnedBytes s.cOp s.cArg rx) (returnedLen s.cOp s.cArg)
        { s with answers := later }) := by
    rw [step_wait_complete hp hf ha hlen, complete_eq]
  constructor
  · intro ha
    exact ⟨returnedBytes s.cOp s.cArg rx, returnedBytes_length (hlen.trans (h.flen_eq hf)),
      fun k hk => returnedBytes_getElem? hk, hcomplete .success ha⟩
  · intro ha
    refine ⟨unspecified s.draws (returnedLen s.cOp s.cArg), unspecified_length .., ?_⟩
    rw [hcomplete .transferFailed ha, unspecified_length]
    rfl

/-- Two answers of one length that COMPLETE turns into the same state give the same step. -/
theorem step_answer_congr {s : State} {req : Request} {ans ans' : Answer} (later : List Answer) (hp : s.phase = .wait)
    (hf : s.inFlight = some req) (hlen : ans.rx.length = ans'.rx.length)
    (hc : complete ans { s with answers := later } = complete ans' { s with answers := later }) :
    step { s with answers := ans :: later } = step { s with answers := ans' :: later } := by
  rw [step_wait_answer (s := { s with answers := ans :: later }) hp hf rfl,
    step_wait_answer (s := { s with answers := ans' :: later }) hp hf rfl, hlen]
  exact if_congr Iff.rfl (congrArg _ hc) rfl

/-- Settles O22: no operation returns position 0, and a write returns nothing. -/
theorem droppedPositionsHaveNoEffect : Obligations.DroppedPositionsHaveNoEffect := by
  constructor
  · intro s req res b b' rx later hp hf
    refine step_answer_congr later hp hf rfl (complete_congr rfl ?_)
    rw [returnedBytes_cons, returnedBytes_cons]
  · intro s req res rx rx' later hp hf hop hlen
    refine step_answer_congr later hp hf hlen (complete_congr rfl ?_)
    rcases hop with hop | hop <;> simp only [hop, returnedBytes]

/-- COMPLETE neither reads nor takes a move of host or link manager. -/
theorem complete_withInputs (l : List Input) (ans : Answer) (s : State) :
    complete ans { s with inputs := l } = { complete ans s with inputs := l } := by
  rw [complete_eq, complete_eq]
  cases ans.res <;> rfl

/-- Settles O24: the only move in WAIT is COMPLETE, which keeps the inputs and the link. -/
theorem hostHasNoMoveWhileWaiting : Obligations.HostHasNoMoveWhileWaiting := by
  intro s hp
  constructor
  · intro l
    exact step_wait_mapNext (fun t => { t with inputs := l }) s hp rfl rfl rfl fun ans later =>
      complete_withInputs l ans { s with answers := later }
  · intro t hstep
    cases step_cases hstep with
    | stays why ht => simp [ht]
    | completes req ans later _ hf ha hlen ht => simp [ht]
    | refuses _ _ _ hp' | accepts _ _ _ hp' | opens _ _ _ hp' | closes _ hp' => cases hp.symm.trans hp'

/-! ### Whole runs (O25, O28, O37) -/

/-- Settles O25, by induction on the number of steps. -/
theorem idleWithNothingPresentedIsFinal : Obligations.IdleWithNothingPresentedIsFinal := by
  intro k s hp hi
  induction k with
  | zero => rfl
  | succ k ih => rw [run_succ_next k (step_idle_nil hp hi), ih]

/-- A step only appends to the two records. -/
theorem step_records_grow {s t : State} (h : step s = .next t) :
    s.responses <+: t.responses ∧ s.requests <+: t.requests := by
  cases step_cases h with
  | stays _ ht | opens _ _ _ _ _ _ ht | closes _ _ _ _ ht => subst ht; exact ⟨List.prefix_rfl, List.prefix_rfl⟩
  | refuses _ _ _ _ _ _ _ ht => subst ht; exact ⟨List.prefix_append .., List.prefix_rfl⟩
  | accepts _ _ _ _ _ _ _ ht => subst ht; exact ⟨List.prefix_rfl, List.prefix_append ..⟩
  | completes req ans later _ _ _ _ ht =>
    subst ht
    obtain ⟨p, _, hresp⟩ := complete_responses ans { s with answers := later }
    exact ⟨⟨[p], hresp.symm⟩, by simp⟩

/-- Settles O28: growing holds across a step, so across a run. -/
theorem recordsOnlyGrow : Obligations.RecordsOnlyGrow :=
  run_relates (R := fun s t => s.responses <+: t.responses ∧ s.requests <+: t.requests)
    (fun _ => ⟨List.prefix_rfl, List.prefix_rfl⟩)
    (fun ⟨hp, hr⟩ ⟨hp', hr'⟩ => ⟨hp.trans hp', hr.trans hr'⟩)
    step_records_grow

/-- Idle over a link that is not Configured and will not be opened. -/
structure LinkStaysDown (s : State) : Prop where
  phase : s.phase = .idle
  linkOk : s.linkOk = false
  noOpen : s.inputs.any Input.isOpen = false

/-- `t` comes after `s` by refusals alone, each NO_LINK or BAD_CMD with empty RDATA. -/
structure OnlyRefused (s t : State) : Prop where
  requests : t.requests = s.requests
  responses : ∃ ps, t.responses = s.responses ++ ps ∧
    ∀ p ∈ ps, (p.status = .noLink ∨ p.status = .badCmd) ∧ p.data = []

theorem OnlyRefused.refl (s : State) : OnlyRefused s s := ⟨rfl, [], by simp⟩

theorem OnlyRefused.trans {s t u : State} (h : OnlyRefused s t) (h' : OnlyRefused t u) : OnlyRefused s u := by
  obtain ⟨ps, he, hall⟩ := h.responses
  obtain ⟨ps', he', hall'⟩ := h'.responses
  refine ⟨h'.requests.trans h.requests, ps ++ ps', by rw [he', he, List.append_assoc], fun p hmem => ?_⟩
  exact (List.mem_append.1 hmem).elim (hall p) (hall' p)

theorem step_linkDown {s t : State} (hd : LinkStaysDown s) (h : step s = .next t) :
    LinkStaysDown t ∧ OnlyRefused s t := by
  obtain ⟨hp, hl, ho⟩ := hd
  cases step_cases h with
  | stays _ ht => subst ht; exact ⟨⟨hp, hl, ho⟩, .refl t⟩
  | refuses c rest st _ hi _ hn ht =>
    subst ht
    rw [hi, List.any_cons, Bool.or_eq_false_iff] at ho
    exact ⟨⟨hp, hl, ho.2⟩, rfl, [⟨st, []⟩], rfl, by simpa using hn hl⟩
  | accepts c rest i _ _ _ hc _ =>
    have hup : s.linkOk = true := linkOk_of_checks hc
    rw [hl] at hup; cases hup
  | opens w tr rest _ hi => rw [hi] at ho; cases ho
  | closes _ _ _ hup => rw [hl] at hup; cases hup
  | completes _ _ _ hp' => rw [hp] at hp'; cases hp'

/-- Settles O37, by induction on the run: no step leaves the states whose link stays down. -/
theorem noExchangeWithoutAnOpen : Obligations.NoExchangeWithoutAnOpen := by
  intro k s t hp hl ho hrun
  obtain ⟨hd, hr⟩ := run_relates (R := fun s t => LinkStaysDown s → LinkStaysDown t ∧ OnlyRefused s t)
    (fun s hd => ⟨hd, .refl s⟩)
    (fun hst htu hd => ⟨(htu (hst hd).1).1, (hst hd).2.trans (htu (hst hd).1).2⟩)
    (fun hstep hd => step_linkDown hd hstep) k s t hrun ⟨hp, hl, ho⟩
  exact ⟨hr.requests, hd.phase, hd.linkOk, hr.responses⟩

/-! ### The stops (O33) -/

/-- The outcome a step ends with when it has no next state, with the broken contract that ends it (logs 3 and 16). -/
inductive StopCase (s : State) : Result → Prop where
  | answer (hp : s.phase = .wait) {req : Request} {ans : Answer} {later : List Answer} (hf : s.inFlight = some req)
      (ha : s.answers = ans :: later) (hlen : ans.rx.length ≠ req.flen) : StopCase s (.fault .answerBreaksContract)
  | secondClose (hp : s.phase = .idle) (hl : s.link = .closed) {rest : List Input} (hi : s.inputs = .closeLink :: rest) :
      StopCase s (.fault .doubleClose)
  | closeUnopened (hp : s.phase = .idle) (hl : s.link = .unopened ∨ ∃ e, s.link = .failed e) {rest : List Input}
      (hi : s.inputs = .closeLink :: rest) : StopCase s (.fault .closeWithoutHandle)
  | secondOpen (hp : s.phase = .idle) {r : Resource} (hl : s.link = .configured r) {w : BusHandle} {tr : OpenTrace}
      {rest : List Input} (hi : s.inputs = .openLink w tr :: rest) : StopCase s (.refused .secondHandle)

theorem closeLink_configured {s : State} {r : Resource} (h : s.link = .configured r) :
    closeLink s = .next { s with link := .closed } := by simp [closeLink, h]

/-- Each broken contract stops the step. -/
theorem step_of_stopCase {s : State} {r : Result} (h : StopCase s r) : step s = r := by
  cases h with
  | answer hp hf ha hlen => rw [step_wait_answer hp hf ha, if_neg hlen]
  | secondClose hp hl hi => rw [step_idle_close hp hi]; simp [closeLink, hl]
  | closeUnopened hp hl hi =>
    rw [step_idle_close hp hi]
    rcases hl with hl | ⟨e, hl⟩ <;> simp [closeLink, hl]
  | secondOpen hp hl hi => rw [step_idle_open hp hi]; simp [openLink, hl]

/-- A step has a next state or ends with one of the broken contracts; no instruction stops it. -/
theorem step_next_or_stopCase (s : State) : (∃ t, step s = .next t) ∨ ∃ r, StopCase s r := by
  cases hp : s.phase with
  | idle =>
    match hi : s.inputs with
    | [] => exact .inl ⟨s, step_idle_nil hp hi⟩
    | .command c :: rest =>
      cases hd : decode c with
      | reservedBits => exact .inl ⟨_, step_idle_reserved hp hi hd⟩
      | ok i =>
        rw [step_idle_ok hp hi hd]
        rcases exec_cases i { s with inputs := rest } with ⟨st, _, he⟩ | ⟨_, he⟩ <;> exact .inl ⟨_, he⟩
    | .openLink w tr :: rest =>
      cases hl : s.link with
      | configured r => exact .inr ⟨_, .secondOpen hp hl hi⟩
      | unopened | failed | closed =>
        exact .inl ⟨_, (step_idle_open hp hi).trans (openLink_down (by simp [State.linkOk, hl, Link.isConfigured]))⟩
    | .closeLink :: rest =>
      cases hl : s.link with
      | configured r => exact .inl ⟨_, (step_idle_close hp hi).trans (closeLink_configured hl)⟩
      | unopened => exact .inr ⟨_, .closeUnopened hp (.inl hl) hi⟩
      | failed e => exact .inr ⟨_, .closeUnopened hp (.inr ⟨e, hl⟩) hi⟩
      | closed => exact .inr ⟨_, .secondClose hp hl hi⟩
  | wait =>
    rcases wait_forms s with (hf | ha) | ⟨req, ans, later, hf, ha⟩
    · exact .inl ⟨s, step_wait_none hp hf⟩
    · exact .inl ⟨s, step_wait_withheld hp ha⟩
    · by_cases hlen : ans.rx.length = req.flen
      · exact .inl ⟨_, step_wait_complete hp hf ha hlen⟩
      · exact .inr ⟨_, .answer hp hf ha hlen⟩

/-- A step that has no next state ends with the broken contract its outcome names. -/
theorem stopCase_of_step {s : State} {r : Result} (h : step s = r) (hr : ∀ t, r ≠ .next t) : StopCase s r := by
  rcases step_next_or_stopCase s with ⟨t, ht⟩ | ⟨r', hc⟩
  · exact absurd (h.symm.trans ht) (hr t)
  · rwa [← h, step_of_stopCase hc]

/-- Settles O33: `StopCase` lists the stops, and no two of them share an outcome. -/
theorem stopsAreBrokenContractsOnly : Obligations.StopsAreBrokenContractsOnly := by
  intro s
  refine ⟨⟨fun h => ?_, ?_⟩, ⟨fun h => ?_, ?_⟩, ⟨fun h => ?_, ?_⟩, ⟨fun h => ?_, ?_⟩, fun x h => ?_⟩
  · cases stopCase_of_step h (by simp) with
    | answer hp hf ha hlen => exact ⟨hp, _, _, _, hf, ha, hlen⟩
  · rintro ⟨hp, req, ans, later, hf, ha, hlen⟩
    exact step_of_stopCase (.answer hp hf ha hlen)
  · cases stopCase_of_step h (by simp) with
    | secondClose hp hl hi => exact ⟨hp, hl, _, hi⟩
  · rintro ⟨hp, hl, rest, hi⟩
    exact step_of_stopCase (.secondClose hp hl hi)
  · cases stopCase_of_step h (by simp) with
    | closeUnopened hp hl hi => exact ⟨hp, hl, _, hi⟩
  · rintro ⟨hp, hl, rest, hi⟩
    exact step_of_stopCase (.closeUnopened hp hl hi)
  · cases stopCase_of_step h (by simp) with
    | secondOpen hp hl hi => exact ⟨hp, ⟨_, hl⟩, _, _, _, hi⟩
  · rintro ⟨hp, ⟨r, hl⟩, w, tr, rest, hi⟩
    exact step_of_stopCase (.secondOpen hp hl hi)
  · cases stopCase_of_step h (by simp) with
    | secondOpen => rfl

end Sys2Proof.Machine
end

section
/-! PROOFS of the family 20_memory: the count of exchanges along a run. -/

namespace Sys2Proof.Machine

theorem inProgress_idle {s : State} (hp : s.phase = .idle) : inProgress s = 0 := by simp [inProgress, State.busy, hp]

theorem inProgress_wait {s : State} (hp : s.phase = .wait) : inProgress s = 1 := by simp [inProgress, State.busy, hp]

/-- A refusal reports no exchange (60_exceptions R101). -/
theorem exchangeResponses_refuse {st : Status} (hs : st.exchanged = false) (s : State) :
    exchangeResponses (refuse st s) = exchangeResponses s := by
  simp [exchangeResponses, hs]

/-- COMPLETE reports one exchange, whatever its result (60_exceptions R101). -/
theorem exchangeResponses_complete (ans : Answer) (s : State) :
    exchangeResponses (complete ans s) = exchangeResponses s + 1 := by
  obtain ⟨p, hp, hresp⟩ := complete_responses ans s
  simp [exchangeResponses, hresp, hp]

/-- From `s` to `t` the requests made match the exchanges reported and the one in progress. -/
def ExchangesBalance (s t : State) : Prop :=
  t.requests.length + exchangeResponses s + inProgress s = s.requests.length + exchangeResponses t + inProgress t

theorem ExchangesBalance.trans {s t u : State} (h : ExchangesBalance s t) (h' : ExchangesBalance t u) :
    ExchangesBalance s u := by
  unfold ExchangesBalance at *
  omega

/-- An exchange is requested where PHASE becomes WAIT and reported where it becomes IDLE again (20_memory R38). -/
theorem step_exchangesBalance {s t : State} (h : step s = .next t) : ExchangesBalance s t := by
  unfold ExchangesBalance
  cases step_cases h with
  | stays _ ht | opens _ _ _ _ _ _ ht | closes _ _ _ _ ht => subst ht; rfl
  | refuses c rest st hp _ hs _ ht =>
    have hpt : t.phase = .idle := by simp [ht, hp]
    have hreq : t.requests = s.requests := by simp [ht]
    have hresp : exchangeResponses t = exchangeResponses s := ht ▸ exchangeResponses_refuse hs { s with inputs := rest }
    rw [hreq, hresp, inProgress_idle hp, inProgress_idle hpt]
  | accepts c rest i hp _ _ _ ht =>
    have hpt : t.phase = .wait := by simp [ht]
    have hreq : t.requests.length = s.requests.length + 1 := by simp [ht]
    have hresp : exchangeResponses t = exchangeResponses s := by simp [exchangeResponses, ht]
    rw [hreq, hresp, inProgress_idle hp, inProgress_wait hpt]
    omega
  | completes req ans later hp _ _ _ ht =>
    have hpt : t.phase = .idle := by simp [ht]
    have hreq : t.requests = s.requests := by simp [ht]
    have hresp : exchangeResponses t = exchangeResponses s + 1 :=
      ht ▸ exchangeResponses_complete ans { s with answers := later }
    rw [hreq, hresp, inProgress_wait hp, inProgress_idle hpt]
    omega

/-- Settles O27: the balance holds across a step, so across a run. -/
theorem everyAcceptedCommandMakesOneExchange : Obligations.EveryAcceptedCommandMakesOneExchange :=
  run_relates (R := ExchangesBalance) (fun _ => rfl) .trans step_exchangesBalance

end Sys2Proof.Machine
end

section
/-! PROOFS of the family 30_encoding: the decoder and the encoder, the header byte, the frames of accepted commands, ignored
fields, and a burst over the fixture DEV. -/

namespace Sys2Proof.Machine

/-! ### The decoder (O1 to O4) -/

/-- The instruction of the operation `o` with the operands of the command `c` (30_encoding R56). -/
def instrOf (o : Op) (c : Command) : Instr :=
  match o with
  | .rdb => .rdb (addrField c.word) (argField c.word)
  | .rdn => .rdn (addrField c.word) (argField c.word)
  | .wrb => .wrb (addrField c.word) (argHigh (argField c.word)) (argLow (argField c.word))
  | .wrn => .wrn (addrField c.word) (argField c.word) c.data

/-- Without reserved bits the OP field names the instruction; all four of its values do (30_encoding R58). -/
theorem decode_of_rsvdField {c : Command} (hr : rsvdField c.word = 0#6) :
    decode c = .ok (instrOf (Op.ofCode (opField c.word)) c) := by
  rw [decode, if_pos hr]
  cases Op.ofCode (opField c.word) <;> rfl

theorem instrOf_encode (i : Instr) : instrOf i.op (encode i) = i := by
  cases i <;> simp [instrOf, encode, Instr.op, Instr.addr, Instr.arg, Instr.data]

/-- Settles O1: the encoding has no reserved bit, and each field of the packed word is the field packed. -/
theorem decodeOfEncodeIsTheInstruction : Obligations.DecodeOfEncodeIsTheInstruction := by
  intro i
  have hr : rsvdField (encode i).word = 0#6 := rsvdField_packWord ..
  have hop : Op.ofCode (opField (encode i).word) = i.op := by simp [encode]
  rw [decode_of_rsvdField hr, hop, instrOf_encode]

/-- The code of a decoded operation is the OP field (30_encoding R55). -/
theorem code_op_of_decode {c : Command} {i : Instr} (h : decode c = .ok i) : i.op.code = opField c.word := by
  obtain ⟨_, hop, _⟩ := decode_ok h
  rw [hop, code_ofCode]

/-- Different operations have different codes (30_encoding R55). -/
theorem code_inj {o o' : Op} : o.code = o'.code ↔ o = o' :=
  ⟨fun h => by rw [← ofCode_code o, h, ofCode_code], congrArg _⟩

/-- The OP field holds the code of `o` exactly where `o` is the decoded operation. -/
theorem opField_eq_code_iff {c : Command} {i : Instr} (h : decode c = .ok i) (o : Op) :
    opField c.word = o.code ↔ i.op = o := by
  rw [← code_op_of_decode h, code_inj]

/-- Settles O2: the decoded fields, packed again, are the word. -/
theorem encodeOfDecodeIsTheCommand : Obligations.EncodeOfDecodeIsTheCommand := by
  intro c i h
  obtain ⟨hr, _, haddr, harg, hwrn, hother⟩ := decode_ok h
  constructor
  · calc packWord i.op.code i.addr i.arg
        = packWord (opField c.word) (addrField c.word) (argField c.word) := by rw [code_op_of_decode h, haddr, harg]
      _ = c.word := packWord_fields c.word hr
  · show i.data = if opField c.word = Op.wrn.code then c.data else []
    by_cases hop : i.op = .wrn
    · rw [if_pos ((opField_eq_code_iff h _).2 hop), hwrn hop]
    · rw [if_neg (mt (opField_eq_code_iff h _).1 hop), hother hop]

/-- A top byte without reserved bits decodes to its operation (30_encoding R60). -/
theorem decode_of_topByte {c : Command} {o : Op} (h : c.word &&& 0xFF000000#32 = packWord o.code 0#8 0#16) :
    decode c = .ok (instrOf o c) := by
  obtain ⟨hr, hop⟩ := (topByte_iff _ _).1 h
  rw [decode_of_rsvdField hr, hop, ofCode_code]

/-- The two bytes of ARG are the low two bytes of the word (30_encoding R55). -/
theorem argHigh_argField (w : Word) : argHigh (argField w) = w.extractLsb' 8 8 :=
  BitVec.extractLsb'_extractLsb'_of_le (by decide)

theorem argLow_argField (w : Word) : argLow (argField w) = w.extractLsb' 0 8 :=
  BitVec.extractLsb'_extractLsb'_of_le (by decide)

/-- Settles O3: a top byte without reserved bits is an OP field, so one of the four. -/
theorem topByteNamesTheOperation : Obligations.TopByteNamesTheOperation := by
  intro c
  refine ⟨decode_of_topByte (o := .rdb), decode_of_topByte (o := .rdn), fun h => ?_, decode_of_topByte (o := .wrn),
    fun h0 h1 h2 h3 => ?_⟩
  · rw [decode_of_topByte (o := .wrb) h, instrOf, argHigh_argField, argLow_argField]
    rfl
  · have hr : rsvdField c.word ≠ 0#6 := by
      intro hr
      have htop (o : Op) (ho : Op.ofCode (opField c.word) = o) :
          c.word &&& 0xFF000000#32 = packWord o.code 0#8 0#16 :=
        (topByte_iff _ _).2 ⟨hr, by rw [← ho, code_ofCode]⟩
      cases ho : Op.ofCode (opField c.word) with
      | rdb => exact h0 (htop _ ho)
      | rdn => exact h1 (htop _ ho)
      | wrb => exact h2 (htop _ ho)
      | wrn => exact h3 (htop _ ho)
    exact ⟨hr, (decode_reservedBits_iff c).2 hr⟩

/-- Settles O4: the first four words are encodings; the last has bit 24 set. -/
theorem wordsWrittenOutDecode : Obligations.WordsWrittenOutDecode :=
  ⟨decodeOfEncodeIsTheInstruction (.rdb 0x2D#8 0x0000#16),
    decodeOfEncodeIsTheInstruction (.rdn 0x32#8 0x0006#16),
    decodeOfEncodeIsTheInstruction (.wrb 0x2D#8 0x00#8 0x08#8),
    decodeOfEncodeIsTheInstruction (.wrn 0x00#8 0x0004#16 [0x5E#8, 0x01#8, 0x02#8, 0x03#8]),
    (decode_reservedBits_iff _).2 (by decide)⟩

/-! ### The header byte (O5) -/

/-- A byte is its two flag bits and its six address bits (30_encoding R51). -/
theorem byte_eq_flags_append (x : Byte) :
    x = BitVec.ofBool (x.getLsbD 7) ++ BitVec.ofBool (x.getLsbD 6) ++ x.extractLsb' 0 6 := by
  revert x; decide

/-- The six address bits of a legal address are the address (10_state R18). -/
theorem toNat_addrBits {a : Byte} (h : a.toNat ≤ 0x3F) : (a.extractLsb' 0 6).toNat = a.toNat := by
  rw [BitVec.extractLsb'_toNat, Nat.shiftRight_zero]
  omega

/-- Settles O5: the flags and a legal address do not overlap. -/
theorem headerIsAddressOrFlags : Obligations.HeaderIsAddressOrFlags := by
  refine ⟨fun _ _ _ => rfl, fun a r b h => ?_, hdr_write, by decide⟩
  obtain ⟨hread, hburst, haddr⟩ := hdr_fields a r b h
  refine ⟨?_, hread, hburst, by rw [haddr, toNat_addrBits h]⟩
  calc hdr a r b
      = BitVec.ofBool ((hdr a r b).getLsbD 7) ++ BitVec.ofBool ((hdr a r b).getLsbD 6) ++ (hdr a r b).extractLsb' 0 6 :=
        byte_eq_flags_append _
    _ = BitVec.ofBool r ++ BitVec.ofBool b ++ a.extractLsb' 0 6 := by rw [hread, hburst, haddr]

/-! ### The frames of accepted commands (O6, O7) -/

theorem hdr_writeBurst (a : Byte) : hdr a false true = a ||| 0x40#8 := by simp [hdr, Config.burstFlag]

/-- Every frame but a WRN's begins with the header of its operation (30_encoding R53). -/
theorem frameOf_eq_hdr_cons {i : Instr} (h : i.op ≠ .wrn) :
    ∃ tl, frameOf i = hdr i.addr (i.op ≠ .wrb) (i.op = .rdn) :: tl := by
  cases i with
  | rdb | rdn | wrb => exact ⟨_, rfl⟩
  | wrn => exact absurd rfl h

/-- The low six bits of ADDR are bits 21 to 16 of the word. -/
theorem addrBits_addrField (w : Word) : (addrField w).extractLsb' 0 6 = w.extractLsb' 16 6 := by
  apply BitVec.eq_of_getLsbD_eq
  intro k hk
  have hk8 : k < 8 := by omega
  simp [addrField, hk, hk8]

/-- The header of an accepted frame, WRN's apart, has the flags of its operation and the low six bits of ADDR
(30_encoding R52). -/
theorem acceptedFrame_header {c : Command} {i : Instr} {s : State} (hd : decode c = .ok i)
    (hc : firstFailure (checksOf s i) = none) (hr : s.params.addrPolicy = .refuse) (o : Op) (ho : o ≠ .wrn)
    (hcode : opField c.word = o.code) :
    ∃ h tl, frameOf i = h :: tl ∧ h.getLsbD 7 = decide (o ≠ .wrb) ∧ h.getLsbD 6 = decide (o = .rdn) ∧
      h.extractLsb' 0 6 = c.word.extractLsb' 16 6 := by
  obtain rfl := (opField_eq_code_iff hd o).1 hcode
  obtain ⟨tl, hframe⟩ := frameOf_eq_hdr_cons ho
  obtain ⟨hread, hburst, haddr⟩ := hdr_fields i.addr (i.op ≠ .wrb) (i.op = .rdn) (addr_le_of_checks hc hr ho)
  obtain ⟨_, _, hfield, _⟩ := decode_ok hd
  exact ⟨_, tl, hframe, hread, hburst, by rw [haddr, hfield, addrBits_addrField]⟩

/-- Settles O6: every frame but a WRN's begins with a header, and a checked address does not reach the flag bits. -/
theorem flagPairOfEveryAcceptedFrame : Obligations.FlagPairOfEveryAcceptedFrame := by
  constructor
  · intro s t c rest r hp hpol hi hstep hw hf
    obtain ⟨i, hd, hc, rfl⟩ := step_accepted hp hi hstep hw
    cases hf
    have header := acceptedFrame_header hd hc hpol
    have hwrn (hcode : opField c.word = Op.wrn.code) : frameOf i = c.data := by
      have hop := (opField_eq_code_iff hd .wrn).1 hcode
      obtain ⟨_, _, _, _, hdata, _⟩ := decode_ok hd
      exact (frameOf_wrn hc hop).trans (hdata hop)
    exact ⟨header .rdb (by decide), header .rdn (by decide), header .wrb (by decide), hwrn⟩
  · intro a ha
    obtain ⟨hread, hburst, haddr⟩ := hdr_fields a false true ha
    rw [hdr_writeBurst] at hread hburst haddr
    exact ⟨hread, hburst, by rw [haddr, toNat_addrBits ha]⟩

/-- FLEN = 0 comes from WRN with L = 0 alone (30_encoding R57). -/
theorem frameLen_eq_zero {o : Op} {arg : Half} : frameLen o arg = 0 ↔ o = .wrn ∧ arg = 0#16 := by
  cases o <;> simp [frameLen, BitVec.toNat_eq]

/-- FLEN = 1 comes from RDN with L = 0 or WRN with L = 1 (30_encoding R57). -/
theorem frameLen_eq_one {o : Op} {arg : Half} :
    frameLen o arg = 1 ↔ (o = .rdn ∧ arg = 0#16) ∨ (o = .wrn ∧ arg = 1#16) := by
  cases o <;> simp [frameLen, BitVec.toNat_eq]

/-- Settles O7: an accepted frame has the length of its operation and length operand, which the checks limit. -/
theorem frameLengthOfEveryAcceptedCommand : Obligations.FrameLengthOfEveryAcceptedCommand := by
  intro s t c rest r hwf hp hi hstep hw hf
  obtain ⟨i, hd, hc, rfl⟩ := step_accepted hp hi hstep hw
  cases hf
  obtain ⟨_, _, _, harg, _, _⟩ := decode_ok hd
  have hop := opField_eq_code_iff hd
  have hflen : (frameOf i).length = frameLen i.op (argField c.word) := harg ▸ frameOf_length hc
  have hlimit : (frameOf i).length ≤ s.params.maxFrame := (frameOf_length hc).trans_le (frameLen_le hwf hc)
  have hflenOf (o : Op) (h : opField c.word = o.code) : (frameOf i).length = frameLen o (argField c.word) :=
    (hop o).1 h ▸ hflen
  refine ⟨rfl, hlimit, hflenOf .rdb, hflenOf .rdn, hflenOf .wrb, hflenOf .wrn, fun h => ?_, fun h => ?_⟩
  · exact (frameLen_eq_zero.1 (hflen.symm.trans h)).imp_left (hop .wrn).2
  · exact (frameLen_eq_one.1 (hflen.symm.trans h)).imp (.imp_left (hop .rdn).2) (.imp_left (hop .wrn).2)

/-! ### Ignored fields (O17) -/

/-- Two instructions with the same checks, accepted into states that `g` does not tell apart, have outcomes that `g` does not
tell apart. -/
theorem exec_mapNext_congr {g : State → State} {i j : Instr} {s : State} (hc : checksOf s i = checksOf s j)
    (ha : g (accept i.op i.addr i.arg (frameOf i) s) = g (accept j.op j.addr j.arg (frameOf j) s)) :
    mapNext g (exec i s) = mapNext g (exec j s) := by
  rw [exec_eq, exec_eq, hc]
  cases firstFailure (checksOf s j) with
  | none => exact congrArg Host.Outcome.next ha
  | some st => rfl

/-- COMPLETE of an operation other than RDN does not read C_ARG (40_read R70, 41_write R80, R81). -/
theorem complete_withArg {s : State} (hop : s.cOp ≠ .rdn) (g : Half) (ans : Answer) :
    complete ans { s with cArg := g } = { complete ans s with cArg := g } := by
  have hreads : returnedBytes s.cOp g ans.rx = returnedBytes s.cOp s.cArg ans.rx ∧
      returnedLen s.cOp g = returnedLen s.cOp s.cArg := by
    cases h : s.cOp with
    | rdb | wrb | wrn => exact ⟨rfl, rfl⟩
    | rdn => exact absurd h hop
  simp only [complete_eq, hreads]
  cases ans.res <;> rfl

/-- COMPLETE does not read C_ADDR (10_state R24). -/
theorem complete_withAddr (a : Byte) (ans : Answer) (s : State) :
    complete ans { s with cAddr := a } = { complete ans s with cAddr := a } := by
  rw [complete_eq, complete_eq]
  cases ans.res <;> rfl

/-- Settles O17: the checks and the frame do not read an ignored field, and COMPLETE reads C_ARG for RDN alone. -/
theorem ignoredFieldsHaveNoEffect : Obligations.IgnoredFieldsHaveNoEffect := by
  refine ⟨fun s a x y => exec_mapNext_congr rfl rfl, fun s a x y v => exec_mapNext_congr rfl rfl,
    fun s x y len data => exec_mapNext_congr rfl rfl, fun s g hp hop => ?_, fun s a hp => ?_⟩
  · exact step_wait_mapNext (fun t => { t with cArg := g }) s hp rfl rfl rfl fun ans later =>
      complete_withArg (s := { s with answers := later }) hop g ans
  · exact step_wait_mapNext (fun t => { t with cAddr := a }) s hp rfl rfl rfl fun ans later =>
      complete_withAddr a ans { s with answers := later }

/-! ### A command accepted and answered in two steps -/

/-- The state after the instruction `i` has been accepted and answered `Success` with `rx`; `rest` and `later` are what is left to
come. -/
def afterExchange (i : Instr) (rx : List Byte) (rest : List Input) (later : List Answer) (s : State) : State :=
  complete ⟨.success, rx⟩ { accept i.op i.addr i.arg (frameOf i) { s with inputs := rest } with answers := later }

section AfterExchange

variable (i : Instr) (rx : List Byte) (rest : List Input) (later : List Answer) (s : State)

@[simp] theorem afterExchange_phase : (afterExchange i rx rest later s).phase = .idle := complete_phase ..
@[simp] theorem afterExchange_params : (afterExchange i rx rest later s).params = s.params := complete_params ..
@[simp] theorem afterExchange_inputs : (afterExchange i rx rest later s).inputs = rest := complete_inputs ..
@[simp] theorem afterExchange_requests :
    (afterExchange i rx rest later s).requests = s.requests ++ [requestFor (frameOf i)] := complete_requests ..

@[simp] theorem afterExchange_linkOk : (afterExchange i rx rest later s).linkOk = s.linkOk := by
  simp [State.linkOk, afterExchange]

@[simp] theorem afterExchange_answers : (afterExchange i rx rest later s).answers = later := by
  simp [afterExchange, complete_eq]

@[simp] theorem afterExchange_responses :
    (afterExchange i rx rest later s).responses = s.responses ++ [⟨.ok, returnedBytes i.op i.arg rx⟩] := by
  simp [afterExchange, complete_eq]

end AfterExchange

/-- A presented instruction that passes its checks and is answered in full is done after two steps. -/
theorem run_exchange {s : State} {i : Instr} {rx : List Byte} {rest : List Input} {later : List Answer} (k : Nat)
    (hp : s.phase = .idle) (hi : s.inputs = .command (encode i) :: rest) (ha : s.answers = ⟨.success, rx⟩ :: later)
    (hc : firstFailure (checksOf s i) = none) (hlen : rx.length = (frameOf i).length) :
    Host.Core.run Sys2Proof.core (k + 2) s = Host.Core.run Sys2Proof.core k (afterExchange i rx rest later s) := by
  have hc' : firstFailure (checksOf { s with inputs := rest } i) = none := by rwa [checksOf_congr rfl rfl]
  have haccept : step s = .next (accept i.op i.addr i.arg (frameOf i) { s with inputs := rest }) := by
    rw [step_idle_ok hp hi (decodeOfEncodeIsTheInstruction i), exec_eq, hc']
    rfl
  exact (run_succ_next (k + 1) haccept).trans (run_succ_next k (step_wait_complete rfl rfl ha hlen))

/-! ### A burst over the fixture DEV (O39) -/

/-- A WRN of as many bytes as it says, within the limit, is accepted over a configured link (60_exceptions R104). -/
theorem checksOf_wrn_pass {s : State} {x : Byte} {len : Half} {data : List Byte} (hlink : s.linkOk = true)
    (hlen : len.toNat = data.length) (hmax : data.length ≤ s.params.maxFrame) :
    firstFailure (checksOf s (.wrn x len data)) = none := by
  simp [checksOf, checkLink_none.2 hlink, checkWriteLen_none.2 ⟨hlen.trans_le hmax, hlen⟩]

/-- An RDN at a legal address within the limit is accepted over a configured link (60_exceptions R104). -/
theorem checksOf_rdn_pass {s : State} {a : Byte} {len : Half} (hlink : s.linkOk = true) (ha : a.toNat ≤ 0x3F)
    (hmax : len.toNat + 1 ≤ s.params.maxFrame) : firstFailure (checksOf s (.rdn a len)) = none := by
  simp [checksOf, checkLink_none.2 hlink, checkAddr_none.2 fun _ => ha, checkReadLen_none.2 hmax]

theorem devExchange_length (d : Dev) (tx : List Byte) : (devExchange d tx).2.length = tx.length := by
  cases tx with
  | nil => rfl
  | cons h rest => exact congrArg (· + 1) (devPositions_length h rest 1 d)

/-- Under a burst header the position `k + 1` addresses the register `a + k` modulo 64. -/
theorem devIndex_burst {a : Byte} (ha : a.toNat ≤ 0x3F) (r : Bool) (k : Nat) :
    (devIndex (hdr a r true) (1 + k)).val = (a.toNat + k) % 64 := by
  obtain ⟨_, hburst, haddr⟩ := hdr_fields a r true ha
  simp [devIndex, hburst, haddr, toNat_addrBits ha]

/-- A burst of at most 64 positions addresses no register twice. -/
theorem devIndex_burst_inj {a : Byte} (ha : a.toNat ≤ 0x3F) (r : Bool) {i j : Nat} (hi : i < 64) (hj : j < 64)
    (h : devIndex (hdr a r true) (1 + i) = devIndex (hdr a r true) (1 + j)) : i = j := by
  have hval := congrArg Fin.val h
  rw [devIndex_burst ha, devIndex_burst ha] at hval
  omega

/-- A burst read addresses the registers a burst write at the same address does. -/
theorem devIndex_burst_read {a : Byte} (ha : a.toNat ≤ 0x3F) (k : Nat) :
    devIndex (hdr a true true) (1 + k) = devIndex (hdr a false true) (1 + k) :=
  Fin.ext ((devIndex_burst ha true k).trans (devIndex_burst ha false k).symm)

/-- A burst read returns what a burst write of as many bytes at the same address stored. -/
theorem devBurst_echo {a : Byte} {data xs : List Byte} (ha : a.toNat ≤ 0x3F) (h64 : data.length ≤ 64)
    (hxs : xs.length = data.length) (d : Dev) :
    (devPositions (hdr a true true) 1 xs (devPositions (hdr a false true) 1 data d).1).2 = data := by
  obtain ⟨hwrite, _, _⟩ := hdr_fields a false true ha
  obtain ⟨hread, _, _⟩ := hdr_fields a true true ha
  have hstored := devPositions_write _ hwrite data 1 d fun i j hi hj hij h =>
    hij (devIndex_burst_inj ha false (by omega) (by omega) h)
  generalize (devPositions (hdr a false true) 1 data d).1 = d' at hstored ⊢
  have hlen : (devPositions (hdr a true true) 1 xs d').2.length = data.length := (devPositions_length ..).trans hxs
  refine List.ext_getElem hlen fun j _ hj => ?_
  have hreg : d'.reg[devIndex (hdr a true true) (1 + j)] = data[j] :=
    (congrArg (fun r : Fin 64 => d'.reg[r]) (devIndex_burst_read ha j)).trans (hstored j hj)
  have hgot := devPositions_read _ hread xs 1 d' j (hj.trans_eq hxs.symm)
  exact (List.getElem_eq_iff _).2 (hgot.trans (congrArg some hreg))

/-- What RDN returns of the device's answer to a burst read, after a burst write of as many bytes at the same address. -/
theorem returnedBytes_devBurst {a : Byte} {data : List Byte} {n : Half} (ha : a.toNat ≤ 0x3F) (h64 : data.length ≤ 64)
    (hn : n.toNat = data.length) (d : Dev) :
    returnedBytes .rdn n (devExchange (devExchange d ((a ||| 0x40#8) :: data)).1
      ((a ||| 0xC0#8) :: List.replicate data.length 0x00#8)).2 = data := by
  have hecho := devBurst_echo ha h64 (List.length_replicate (a := 0x00#8)) d
  rw [hdr_burst, hdr_writeBurst] at hecho
  rw [devExchange, returnedBytes_cons]
  exact (congrArg _ hecho).trans (List.take_of_length_le hn.ge)

/-- Settles O39: both commands pass their checks, and the burst read finds what the burst write stored. -/
theorem echoDeviceBurstRoundTrip : Obligations.EchoDeviceBurstRoundTrip := by
  intro s d a data n rest later hp hlink haddr hn h64 hmax hi ha
  have hL : (n + 1#16).toNat = data.length + 1 := by
    rw [BitVec.toNat_add_of_lt (by simp; omega), hn]; rfl
  have hwrite : frameOf (.wrn 0x00#8 (n + 1#16) ((a ||| 0x40#8) :: data)) = (a ||| 0x40#8) :: data := frameWrn_eq hL
  have hread : frameOf (.rdn a n) = (a ||| 0xC0#8) :: List.replicate data.length 0x00#8 := hn ▸ frameRdn_eq a n
  have hfirst := run_exchange 2 hp hi ha (checksOf_wrn_pass hlink hL hmax) (by rw [hwrite, devExchange_length])
  refine ⟨_, hfirst.trans (run_exchange 0 (afterExchange_phase ..) (afterExchange_inputs ..) (afterExchange_answers ..)
    (checksOf_rdn_pass (by simpa using hlink) haddr (by simpa [hn] using hmax)) (by rw [hread, devExchange_length])),
    afterExchange_phase .., ?_, ?_⟩
  · simp [hread, hwrite, requestFor, Config.xferSpeedHz, Config.xferWordBits]
  · simp only [afterExchange_responses, List.append_assoc, List.singleton_append]
    exact congrArg (fun got => s.responses ++ [⟨.ok, []⟩, ⟨.ok, got⟩]) (returnedBytes_devBurst haddr h64 hn d)

end Sys2Proof.Machine
end

section
/-! PROOFS of the family 40_read: RDB and RDN from ACCEPT to the response, and one byte written and read back over the fixture
DEV. -/

namespace Sys2Proof.Machine

/-! ### The checks and the requests of the single-register commands and of RDN -/

/-- What RDB must pass (60_exceptions R104). -/
theorem checksOf_rdb_iff {s : State} {a : Byte} {x : Half} : firstFailure (checksOf s (.rdb a x)) = none ↔
    s.linkOk = true ∧ (s.params.addrPolicy = .refuse → a.toNat ≤ 0x3F) := by
  simp [firstFailure_eq_none, checksOf, checkLink_none, checkAddr_none]

/-- WRB passes the checks of RDB (60_exceptions R104). -/
theorem checksOf_wrb_iff {s : State} {a x v : Byte} : firstFailure (checksOf s (.wrb a x v)) = none ↔
    s.linkOk = true ∧ (s.params.addrPolicy = .refuse → a.toNat ≤ 0x3F) :=
  checksOf_rdb_iff (x := 0#16)

/-- What RDN must pass (60_exceptions R104). -/
theorem checksOf_rdn_iff {s : State} {a : Byte} {len : Half} : firstFailure (checksOf s (.rdn a len)) = none ↔
    s.linkOk = true ∧ (s.params.addrPolicy = .refuse → a.toNat ≤ 0x3F) ∧ len.toNat + 1 ≤ s.params.maxFrame := by
  simp [firstFailure_eq_none, checksOf, checkLink_none, checkAddr_none, checkReadLen_none]

theorem requestFor_frameRdb (a : Byte) : requestFor (frameRdb a) = ⟨[a ||| 0x80#8, 0x00#8], 2, 10000, 8⟩ := by
  rw [frameRdb_eq]; rfl

theorem requestFor_frameWrb (a v : Byte) : requestFor (frameWrb a v) = ⟨[a, v], 2, 10000, 8⟩ := by
  rw [frameWrb_eq]; rfl

theorem requestFor_frameRdn (a : Byte) (len : Half) : requestFor (frameRdn a len) =
    ⟨(a ||| 0xC0#8) :: List.replicate len.toNat 0x00#8, len.toNat + 1, 10000, 8⟩ := by
  rw [frameRdn_eq, requestFor, List.length_cons, List.length_replicate]; rfl

/-! ### ACCEPT of a command that passes its checks, and the answer to its exchange -/

/-- A command that passes its checks is accepted (10_state R23). -/
theorem exec_of_checks {i : Instr} {s : State} (hc : firstFailure (checksOf s i) = none) :
    exec i s = .next (accept i.op i.addr i.arg (frameOf i) s) := by
  rw [exec_eq, hc]; rfl

/-- COMPLETE of a command just accepted (10_state R24): of the answer's positions after the first, those the command returns. -/
theorem step_accept_answered {i : Instr} {s : State} {res : XferResult} {b : Byte} {got : List Byte} {later : List Answer}
    (ha : s.answers = ⟨res, b :: got⟩ :: later) (hlen : (b :: got).length = (frameOf i).length) :
    step (accept i.op i.addr i.arg (frameOf i) s) =
      .next (finishWith res (got.take (returnedLen i.op i.arg)) (returnedLen i.op i.arg)
        { accept i.op i.addr i.arg (frameOf i) s with answers := later }) := by
  rw [step_wait_complete (s := accept i.op i.addr i.arg (frameOf i) s) rfl rfl ha hlen, complete_eq]
  exact congrArg (fun d => Host.Outcome.next (finishWith res d _ _)) (returnedBytes_cons ..)

/-! ### RDB and RDN (O8, O9) -/

/-- Settles O8: RDB returns one byte of the two received, or one unspecified byte. -/
theorem rdbReadsOneByte : Obligations.RdbReadsOneByte := by
  intro s a ignored _ hlink haddr
  refine ⟨_, exec_of_checks (checksOf_rdb_iff.2 ⟨hlink, haddr⟩), ?_, fun b0 b1 later => ⟨fun ha => ?_, fun ha => ?_⟩⟩
  · rw [← requestFor_frameRdb]; rfl
  · exact step_accept_answered ha rfl
  · exact ⟨Config.unspecifiedByte s.draws, step_accept_answered ha rfl⟩

/-- Settles O9: RDN returns all positions received after the first, or as many unspecified bytes. -/
theorem rdnReadsABurst : Obligations.RdnReadsABurst := by
  intro s a len _ hlink haddr hmax
  have hc := checksOf_rdn_iff.2 ⟨hlink, haddr, hmax⟩
  refine ⟨_, exec_of_checks hc, ?_, fun b0 got later hgot => ?_⟩
  · rw [← requestFor_frameRdn]; rfl
  · have hlen : (b0 :: got).length = (frameOf (.rdn a len)).length :=
      (congrArg (· + 1) hgot).trans (frameOf_length hc).symm
    have htake : got.take (returnedLen .rdn len) = got := List.take_of_length_le hgot.le
    refine ⟨fun ha => ?_, fun ha => ⟨unspecified s.draws len.toNat, unspecified_length .., step_accept_answered ha hlen⟩⟩
    exact (step_accept_answered ha hlen).trans (congrArg (fun d => Host.Outcome.next (finish .ok d _)) htake)

/-! ### One byte over the fixture DEV (O38) -/

/-- The first position after the header addresses the register that the header's low six bits name, burst or not. -/
theorem devIndex_first {a : Byte} (ha : a.toNat ≤ 0x3F) (r b : Bool) : (devIndex (hdr a r b) 1).val = a.toNat := by
  obtain ⟨_, _, haddr⟩ := hdr_fields a r b ha
  simpa [devIndex, haddr, toNat_addrBits ha] using Nat.lt_succ_of_le ha

/-- What RDB returns of the device's answer, after a WRB to the same address: the byte that WRB stored. -/
theorem returnedBytes_devByte {a : Byte} (ha : a.toNat ≤ 0x3F) (v : Byte) (x : Half) (d : Dev) :
    returnedBytes .rdb x (devExchange (devExchange d (frameWrb a v)).1 (frameRdb a)).2 = [v] := by
  obtain ⟨hwrite, _, _⟩ := hdr_fields a false false ha
  obtain ⟨hread, _, _⟩ := hdr_fields a true false ha
  have hindex : devIndex (hdr a true false) 1 = devIndex (hdr a false false) 1 :=
    Fin.ext ((devIndex_first ha ..).trans (devIndex_first ha ..).symm)
  simp only [frameWrb, frameRdb, devExchange, devPositions, hwrite, hread, hindex, returnedBytes_cons, Bool.false_eq_true,
    if_true, if_false]
  simp [returnedLen]

/-- Settles O38: both commands pass their checks, and the read finds the byte the write stored. -/
theorem echoDeviceRoundTrip : Obligations.EchoDeviceRoundTrip := by
  intro s d a v rest later hp hlink haddr hi ha
  rw [← frameRdb_eq, ← frameWrb_eq] at ha
  have hfirst := run_exchange 2 hp hi ha (checksOf_wrb_iff.2 ⟨hlink, fun _ => haddr⟩) (devExchange_length ..)
  refine ⟨_, hfirst.trans (run_exchange 0 (afterExchange_phase ..) (afterExchange_inputs ..) (afterExchange_answers ..)
    (checksOf_rdb_iff.2 ⟨by simpa using hlink, fun _ => haddr⟩) (devExchange_length ..)), afterExchange_phase .., ?_, ?_⟩
  · simp [frameOf, requestFor_frameRdb, requestFor_frameWrb]
  · simp only [afterExchange_responses, List.append_assoc, List.singleton_append]
    exact congrArg (fun got => s.responses ++ [⟨.ok, []⟩, ⟨.ok, got⟩]) (returnedBytes_devByte haddr v 0#16 d)

end Sys2Proof.Machine
end

section
/-! PROOFS of the family 41_write: WRB and WRN from ACCEPT to the response. -/

namespace Sys2Proof.Machine

/-- An operation that returns no bytes draws none when its exchange has failed, so only the status shows the result. -/
theorem finishWith_nothing (res : XferResult) (s : State) : finishWith res [] 0 s = finish (statusOf res) [] s := by
  cases res with
  | success => rfl
  | transferFailed => rfl

/-- COMPLETE of a write drops every received position and reports the status of the exchange (41_write R80, R81). -/
theorem complete_of_write {s : State} (hop : s.cOp = .wrb ∨ s.cOp = .wrn) (ans : Answer) :
    complete ans s = finish (statusOf ans.res) [] s := by
  rw [complete_eq, ← finishWith_nothing]
  rcases hop with h | h <;> rw [h] <;> rfl

/-- The answer to the exchange of a write just accepted (10_state R24). -/
theorem step_accept_write_answered {i : Instr} {s : State} {res : XferResult} {rx : List Byte} {later : List Answer}
    (hop : i.op = .wrb ∨ i.op = .wrn) (ha : s.answers = ⟨res, rx⟩ :: later) (hlen : rx.length = (frameOf i).length) :
    step (accept i.op i.addr i.arg (frameOf i) s) =
      .next (finish (statusOf res) [] { accept i.op i.addr i.arg (frameOf i) s with answers := later }) := by
  rw [step_wait_complete (s := accept i.op i.addr i.arg (frameOf i) s) rfl rfl ha hlen]
  exact congrArg Host.Outcome.next (complete_of_write hop _)

theorem requestFor_frameWrn {len : Half} {data : List Byte} (h : len.toNat = data.length) :
    requestFor (frameWrn len data) = ⟨data, data.length, 10000, 8⟩ := by
  rw [frameWrn_eq h]; rfl

/-- Settles O10: WRB passes the checks of its address, and its COMPLETE returns nothing. -/
theorem wrbWritesOneByte : Obligations.WrbWritesOneByte := by
  intro s a ignored v _ hlink haddr
  refine ⟨_, exec_of_checks (checksOf_wrb_iff.2 ⟨hlink, haddr⟩), ?_, fun b0 b1 later => ⟨fun ha => ?_, fun ha => ?_⟩⟩
  · rw [← requestFor_frameWrb]; rfl
  · exact step_accept_write_answered (.inl rfl) ha rfl
  · exact step_accept_write_answered (.inl rfl) ha rfl

/-- Settles O11: WRN passes the checks of its length, its frame is DATA, and its COMPLETE returns nothing. -/
theorem wrnSendsTheCallersBytes : Obligations.WrnSendsTheCallersBytes := by
  intro s ignored len data _ hlink hlen hmax
  have hc : firstFailure (checksOf s (.wrn ignored len data)) = none := checksOf_wrn_pass hlink hlen (hlen ▸ hmax)
  refine ⟨_, exec_of_checks hc, ?_, fun rx later hrx => ?_⟩
  · rw [← requestFor_frameWrn hlen]; rfl
  · have hflen : rx.length = (frameOf (.wrn ignored len data)).length := (hrx.trans hlen.symm).trans (frameOf_length hc).symm
    exact ⟨fun ha => step_accept_write_answered (.inr rfl) ha hflen,
      fun ha => step_accept_write_answered (.inr rfl) ha hflen⟩

end Sys2Proof.Machine
end

section
/-! PROOFS of the family 42_transfer_primitive: the constants of every request, and the configured link that no step reads. -/

namespace Sys2Proof.Machine

/-- A step makes no request, or the one ACCEPT hands over (10_state R23). -/
theorem step_requests {s t : State} (h : step s = .next t) :
    t.requests = s.requests ∨ ∃ tx, t.requests = s.requests ++ [requestFor tx] := by
  cases step_cases h with
  | stays _ ht | refuses _ _ _ _ _ _ _ ht | opens _ _ _ _ _ _ ht | closes _ _ _ _ ht => exact .inl (ht ▸ rfl)
  | accepts c rest i _ _ _ _ ht => exact .inr ⟨frameOf i, ht ▸ rfl⟩
  | completes req ans later _ _ _ _ ht => exact .inl (ht ▸ complete_requests ..)

/-- The handle `h`, where it is the one configured, replaced by `h'`, and the link's registers by `c`. -/
def reconfigure (h h' : Resource) (c : LinkConfig) (t : State) : State :=
  { t with link := if t.link = .configured h then .configured h' else t.link, linkConfig := c }

section Reconfigure

variable {h : Resource} (h' : Resource) (c : LinkConfig) {s : State}

theorem reconfigure_of_configured (hl : s.link = .configured h) :
    reconfigure h h' c s = { s with link := .configured h', linkConfig := c } := by
  rw [reconfigure, if_pos hl]

theorem reconfigure_link (hl : s.link = .configured h) : (reconfigure h h' c s).link = .configured h' := if_pos hl

/-- The checks read of the link only that it is configured (60_exceptions R104). -/
theorem checksOf_reconfigure (hl : s.link = .configured h) (i : Instr) :
    checksOf (reconfigure h h' c s) i = checksOf s i := by
  have hk : checkLink (reconfigure h h' c s) = checkLink s := by
    rw [checkLink_none.2 (congrArg Link.isConfigured hl),
      checkLink_none.2 (congrArg Link.isConfigured (reconfigure_link h' c hl))]
  cases i <;> simp only [checksOf, hk] <;> rfl

/-- ACCEPT neither reads nor writes which link is configured. -/
theorem exec_reconfigure (hl : s.link = .configured h) (i : Instr) :
    exec i (reconfigure h h' c s) = mapNext (reconfigure h h' c) (exec i s) := by
  rw [exec_eq, exec_eq, checksOf_reconfigure h' c hl]
  cases firstFailure (checksOf s i) with
  | none => rfl
  | some st => rfl

/-- COMPLETE neither reads nor writes which link is configured. -/
theorem complete_reconfigure (ans : Answer) (s : State) :
    complete ans (reconfigure h h' c s) = reconfigure h h' c (complete ans s) := by
  rw [complete_eq, complete_eq]
  cases ans.res <;> rfl

/-- A close ends whichever link is configured. -/
theorem closeLink_reconfigure (hl : s.link = .configured h) :
    closeLink (reconfigure h h' c s) = mapNext (reconfigure h h' c) (closeLink s) := by
  rw [closeLink_configured hl, closeLink_configured (reconfigure_link h' c hl)]
  rfl

/-- No move reads which link is configured: a command is checked for a configured link, an open beside it is refused, a close
ends it, and COMPLETE does not look at it. -/
theorem step_reconfigure (hl : s.link = .configured h) :
    step (reconfigure h h' c s) = mapNext (reconfigure h h' c) (step s) := by
  cases hp : s.phase with
  | idle =>
    have hp' : (reconfigure h h' c s).phase = .idle := hp
    match hi : s.inputs with
    | [] => rw [step_idle_nil hp hi, step_idle_nil hp' hi]; rfl
    | .command cmd :: rest =>
      cases hd : decode cmd with
      | reservedBits => rw [step_idle_reserved hp hi hd, step_idle_reserved hp' hi hd]; rfl
      | ok i =>
        rw [step_idle_ok hp hi hd, step_idle_ok hp' hi hd]
        exact exec_reconfigure (s := { s with inputs := rest }) h' c hl i
    | .openLink w tr :: rest =>
      rw [step_of_stopCase (.secondOpen hp hl hi), step_of_stopCase (.secondOpen hp' (reconfigure_link h' c hl) hi)]
      rfl
    | .closeLink :: rest =>
      rw [step_idle_close hp hi, step_idle_close hp' hi]
      exact closeLink_reconfigure (s := { s with inputs := rest }) h' c hl
  | wait =>
    exact step_wait_mapNext (reconfigure h h' c) s hp rfl rfl rfl fun ans later =>
      complete_reconfigure h' c ans { s with answers := later }

end Reconfigure

/-- Settles O29: only ACCEPT makes a request, and it takes both values from the constants; no move reads which link is
configured. -/
theorem requestsCarryTheConstants : Obligations.RequestsCarryTheConstants := by
  constructor
  · intro s t hstep r hr
    rcases step_requests hstep with hsame | ⟨tx, hnew⟩
    · exact .inl (hsame ▸ hr)
    · rw [hnew] at hr
      exact (List.mem_append.1 hr).imp_right fun hr => by simp [List.mem_singleton.1 hr]
  · intro s h h' c hl
    rw [← reconfigure_of_configured h' c hl]
    exact step_reconfigure h' c hl

end Sys2Proof.Machine
end

section
/-! PROOFS of the family 60_exceptions: the one response of every command, the checks of ACCEPT in their order, what a refusal
and a failed exchange leave, the link's open and close, and its registers. -/

namespace Sys2Proof.Machine

/-! ### One response for each command (O26) -/

theorem commandsLeft_cons {s : State} {i : Input} {rest : List Input} (hi : s.inputs = i :: rest) :
    commandsLeft s = commandsLeft { s with inputs := rest } + if i.isCommand then 1 else 0 := by
  simp only [commandsLeft, hi, List.countP_cons]

/-- The commands still to come, the responses delivered and the command in progress. -/
def commandsCount (s : State) : Nat := commandsLeft s + s.responses.length + inProgress s

/-- A command taken is answered at once or is in progress until COMPLETE answers it; no other move changes the count. -/
theorem step_commandsCount {s t : State} (h : step s = .next t) : commandsCount t = commandsCount s := by
  unfold commandsCount
  cases step_cases h with
  | stays _ ht => rw [ht]
  | refuses c rest st hp hi _ _ ht =>
    have hpt : t.phase = .idle := by simp [ht, hp]
    have hleft : commandsLeft s = commandsLeft t + 1 := ht ▸ commandsLeft_cons hi
    have hresp : t.responses.length = s.responses.length + 1 := by simp [ht]
    rw [hleft, hresp, inProgress_idle hp, inProgress_idle hpt]
    omega
  | accepts c rest i hp hi _ _ ht =>
    have hpt : t.phase = .wait := by simp [ht]
    have hleft : commandsLeft s = commandsLeft t + 1 := ht ▸ commandsLeft_cons hi
    have hresp : t.responses = s.responses := by simp [ht]
    rw [hleft, hresp, inProgress_idle hp, inProgress_wait hpt]
    omega
  | opens _ _ _ _ hi _ ht | closes _ _ hi _ ht =>
    have hleft : commandsLeft s = commandsLeft t := ht ▸ commandsLeft_cons hi
    rw [hleft, ht]
    rfl
  | completes req ans later hp _ _ _ ht =>
    have hpt : t.phase = .idle := by simp [ht]
    have hleft : commandsLeft t = commandsLeft s := by simp [commandsLeft, ht]
    obtain ⟨p, _, hp'⟩ := complete_responses ans { s with answers := later }
    have hresp : t.responses.length = s.responses.length + 1 := by simp [ht, hp']
    rw [hleft, hresp, inProgress_wait hp, inProgress_idle hpt]
    omega

/-- Settles O26: the count stays across a step, so across a run. -/
theorem everyCommandGetsOneResponse : Obligations.EveryCommandGetsOneResponse :=
  run_relates (R := fun s t => commandsCount t = commandsCount s) (fun _ => rfl) (fun h h' => h'.trans h)
    step_commandsCount

/-! ### The checks of ACCEPT (O14, O15) -/

/-- Check 3 of R104 fails: an address operand above 0x3F under `refuse`. -/
abbrev AddrFails (p : Params) (i : Instr) : Prop := i.op ≠ .wrn ∧ p.addrPolicy = .refuse ∧ 0x3F < i.addr.toNat

/-- Check 4 of R104 fails: a frame above MAX_FRAME, or a WRN whose length is not DATA's. -/
abbrev LengthFails (p : Params) (i : Instr) : Prop :=
  (i.op = .rdn ∧ p.maxFrame < i.arg.toNat + 1) ∨
    (i.op = .wrn ∧ (p.maxFrame < i.arg.toNat ∨ i.arg.toNat ≠ i.data.length))

theorem firstFailure_ite (q : Prop) [Decidable q] (st : Status) (l : List (Option Status)) :
    firstFailure ((if q then some st else none) :: l) = if q then some st else firstFailure l := by
  split <;> rfl

theorem checkLink_eq (s : State) : checkLink s = if s.linkOk = false then some .noLink else none := by
  unfold checkLink
  cases s.linkOk <;> rfl

theorem checkAddr_eq (p : Params) (a : Byte) :
    checkAddr p a = if p.addrPolicy = .refuse ∧ 0x3F < a.toNat then some .badAddr else none := by
  split
  next h =>
    cases hc : checkAddr p a with
    | none => have := checkAddr_none.1 hc h.1; omega
    | some st => rw [checkAddr_some hc]
  next h => exact checkAddr_none.2 fun hr => by have := not_and.1 h hr; omega

/-- The status of the first failing check, in the order of R104. -/
theorem firstFailure_checksOf (s : State) (i : Instr) : firstFailure (checksOf s i) =
    if s.linkOk = false then some .noLink
    else if AddrFails s.params i then some .badAddr
    else if LengthFails s.params i then some .badLen
    else none := by
  cases i <;> simp [checksOf, checkLink_eq, checkAddr_eq, checkReadLen, checkWriteLen, firstFailure_ite,
    AddrFails, LengthFails, Instr.op, Instr.addr, Instr.arg, Instr.data]

/-- ACCEPT refuses with the first failing check of R104, or accepts. -/
theorem exec_checks (i : Instr) (s : State) : exec i s =
    if s.linkOk = false then .next (refuse .noLink s)
    else if AddrFails s.params i then .next (refuse .badAddr s)
    else if LengthFails s.params i then .next (refuse .badLen s)
    else .next (accept i.op i.addr i.arg (frameOf i) s) := by
  rw [exec_eq, firstFailure_checksOf]
  split_ifs <;> rfl

/-- The step that takes a command without reserved bits: the chain of R104 from its second check on. -/
theorem step_idle_checks {s : State} {c : Command} {rest : List Input} {i : Instr} (hp : s.phase = .idle)
    (hi : s.inputs = .command c :: rest) (hd : decode c = .ok i) : step s =
      if s.linkOk = false then .next (refusedState .noLink rest s)
      else if AddrFails s.params i then .next (refusedState .badAddr rest s)
      else if LengthFails s.params i then .next (refusedState .badLen rest s)
      else .next (accept i.op i.addr i.arg (frameOf i) { s with inputs := rest }) :=
  (step_idle_ok hp hi hd).trans (exec_checks i { s with inputs := rest })

/-- Settles O14: the checks read of the word the fields that the decoder reads. -/
theorem checksRunInOrder : Obligations.ChecksRunInOrder := by
  intro s c rest hp hi
  refine ⟨fun hr => step_idle_reserved hp hi ((decode_reservedBits_iff c).2 hr), fun hr => ?_⟩
  obtain ⟨i, hd⟩ : ∃ i, decode c = .ok i := ⟨_, decode_of_rsvdField hr⟩
  obtain ⟨_, _, haddr, harg, hdata, _⟩ := decode_ok hd
  have hrdn : c.word.extractLsb' 30 2 = 1#2 ↔ i.op = .rdn := opField_eq_code_iff hd .rdn
  have hwrn : c.word.extractLsb' 30 2 = 3#2 ↔ i.op = .wrn := opField_eq_code_iff hd .wrn
  have hcheck3 : (c.word.extractLsb' 30 2 ≠ 3#2 ∧ s.params.addrPolicy = .refuse ∧
      0x3F < (c.word.extractLsb' 16 8).toNat) ↔ AddrFails s.params i := by
    rw [AddrFails, Ne, hwrn, haddr]
    rfl
  have hcheck4 : ((c.word.extractLsb' 30 2 = 1#2 ∧ s.params.maxFrame < (c.word.extractLsb' 0 16).toNat + 1) ∨
      (c.word.extractLsb' 30 2 = 3#2 ∧ (s.params.maxFrame < (c.word.extractLsb' 0 16).toNat ∨
        (c.word.extractLsb' 0 16).toNat ≠ c.data.length))) ↔ LengthFails s.params i := by
    rw [LengthFails, hrdn, hwrn, harg]
    exact or_congr_right (and_congr_right fun hop => by rw [hdata hop]; rfl)
  rw [hcheck3, hcheck4, step_idle_checks hp hi hd]
  refine ⟨fun hl => if_pos hl, fun hl => ?_⟩
  rw [if_neg (by simp [hl])]
  refine ⟨fun h3 => if_pos h3, fun h3 => ?_⟩
  rw [if_neg h3]
  refine ⟨fun h4 => if_pos h4, fun h4 => ?_⟩
  rw [if_neg h4]
  exact ⟨_, rfl, rfl, rfl, by simp⟩

/-- Settles O15: what a refusal writes is past, and no step reads the past. -/
theorem refusalLeavesNoTrace : Obligations.RefusalLeavesNoTrace := by
  intro s t c rest hp hi hstep hpt
  obtain ⟨st, hst, ht⟩ := step_refused hp hi hstep hpt
  have hpast (ps : List Response) : step { s with inputs := rest, responses := ps } =
      mapNext (withPast ps s.requests) (step { s with inputs := rest, responses := [], requests := [] }) := by
    rw [← pastIsNeverRead]
    simp [withPast]
  exact ⟨st, hst, ht, ht ▸ hpast _, hpast s.responses⟩

/-! ### The two results of an exchange (O21) -/

/-- Settles O21: COMPLETE writes the same state on both results, the response and the bytes drawn apart. -/
theorem failureLeavesWhatSuccessLeaves : Obligations.FailureLeavesWhatSuccessLeaves := by
  intro s req rx rx' later hp hf hlen hlen'
  refine ⟨_, _, ⟨.transferFailed, unspecified s.draws (returnedLen s.cOp s.cArg)⟩,
    (step_wait_complete (s := { s with answers := ⟨.success, rx⟩ :: later }) hp hf rfl hlen).trans
      (congrArg _ (complete_eq ..)), rfl, rfl, rfl, rfl, rfl, ?_⟩
  rw [step_wait_complete (s := { s with answers := ⟨.transferFailed, rx'⟩ :: later }) hp hf rfl hlen', complete_eq,
    unspecified_length]
  rfl

/-! ### The codes of the statuses (O16) -/

/-- The status a code stands for; none for 6 and 7 (60_exceptions R101). -/
def Status.ofCode (b : BitVec 3) : Option Status :=
  [Status.ok, .transferFailed, .noLink, .badAddr, .badLen, .badCmd][b.toNat]?

theorem statusOfCode_code (x : Status) : Status.ofCode x.code = some x := by cases x <;> rfl

/-- A code that stands for no status is no status's. -/
theorem code_ne_of_statusOfCode {b : BitVec 3} (h : Status.ofCode b = none) (x : Status) : x.code ≠ b := by
  rintro rfl
  rw [statusOfCode_code] at h
  cases h

/-- Settles O16: a status can be read back from its code. -/
theorem statusCodesOfTheTable : Obligations.StatusCodesOfTheTable :=
  ⟨rfl, rfl, rfl, rfl, rfl, rfl,
    fun x y h => Option.some.inj (by rw [← statusOfCode_code x, h, statusOfCode_code y]),
    fun x => ⟨code_ne_of_statusOfCode rfl x, code_ne_of_statusOfCode rfl x⟩⟩

/-! ### Open and close (O34, O35, O36) -/

section OpenResult

variable {w : BusHandle} {tr : OpenTrace} (before : LinkConfig)

theorem openResult_nodeFails (hn : tr.nodeOpens = false) :
    openResult w tr before = (.failed .openFailed, before) := by simp [openResult, hn]

theorem openResult_modeFails (hn : tr.nodeOpens = true) (hm : tr.mode.bad) :
    openResult w tr before = (.failed (.configurationFailed .mode), { before with mode := tr.mode.left }) := by
  obtain ⟨hm, hm'⟩ := confirms_failed (v := w.config.mode) hm
  simp [openResult, hn, hm, hm']

theorem openResult_speedFails (hn : tr.nodeOpens = true) (hm : tr.mode.good w.config.mode) (hs : tr.speed.bad) :
    openResult w tr before = (.failed (.configurationFailed .speed),
      { before with mode := w.config.mode, speedHz := tr.speed.left }) := by
  obtain ⟨hm, hm'⟩ := confirms_readBack hm.1 hm.2
  obtain ⟨hs, hs'⟩ := confirms_failed (v := w.config.speedHz) hs
  simp [openResult, hn, hm, hm', hs, hs']

theorem openResult_wordSizeFails (hn : tr.nodeOpens = true) (hm : tr.mode.good w.config.mode)
    (hs : tr.speed.good w.config.speedHz) (hw : tr.wordSize.bad) :
    openResult w tr before = (.failed (.configurationFailed .wordSize),
      { mode := w.config.mode, speedHz := w.config.speedHz, wordBits := tr.wordSize.left }) := by
  obtain ⟨hm, hm'⟩ := confirms_readBack hm.1 hm.2
  obtain ⟨hs, hs'⟩ := confirms_readBack hs.1 hs.2
  obtain ⟨hw, hw'⟩ := confirms_failed (v := w.config.wordBits) hw
  simp [openResult, hn, hm, hm', hs, hs', hw, hw']

theorem openResult_succeeds (hn : tr.nodeOpens = true) (hm : tr.mode.good w.config.mode)
    (hs : tr.speed.good w.config.speedHz) (hw : tr.wordSize.good w.config.wordBits) :
    openResult w tr before = (.configured w.resource, w.config) := by
  obtain ⟨hm, hm'⟩ := confirms_readBack hm.1 hm.2
  obtain ⟨hs, hs'⟩ := confirms_readBack hs.1 hs.2
  obtain ⟨hw, hw'⟩ := confirms_readBack hw.1 hw.2
  simp [openResult, hn, hm, hm', hs, hs', hw, hw']

/-- An open ends configured as wanted or failed (60_exceptions R113). -/
theorem openResult_link (w : BusHandle) (tr : OpenTrace) :
    (openResult w tr before).1 = .configured w.resource ∨ ∃ e, (openResult w tr before).1 = .failed e := by
  unfold openResult
  split_ifs <;> simp

/-- Whether an open succeeds does not depend on what the registers held. -/
theorem openResult_link_congr (w : BusHandle) (tr : OpenTrace) (before before' : LinkConfig) :
    (openResult w tr before).1 = (openResult w tr before').1 := by
  unfold openResult
  split_ifs <;> rfl

end OpenResult

/-- An open in IDLE, over a link that is not configured. -/
theorem step_open {s : State} {w : BusHandle} {tr : OpenTrace} {rest : List Input} (hp : s.phase = .idle)
    (hl : s.linkOk = false) (hi : s.inputs = .openLink w tr :: rest) :
    step s = .next (opened w tr { s with inputs := rest }) :=
  (step_idle_open hp hi).trans (openLink_down hl)

/-- A close in IDLE, over a configured link. -/
theorem step_close {s : State} {r : Resource} {rest : List Input} (hp : s.phase = .idle)
    (hl : s.link = .configured r) (hi : s.inputs = .closeLink :: rest) :
    step s = .next { s with inputs := rest, link := .closed } :=
  (step_idle_close hp hi).trans (closeLink_configured hl)

/-- Settles O34: each clause is one case of `openResult`. -/
theorem openConfiguresAllOrFails : Obligations.OpenConfiguresAllOrFails := by
  intro s w tr rest hp hl hi
  refine ⟨(openResult w tr s.linkConfig).1, (openResult w tr s.linkConfig).2, step_open hp hl hi, openResult_link ..,
    fun hn => ?_, fun hn hm => ?_, fun hn hm hs => ?_, fun hn hm hs hw => ?_, fun hn hm hs hw => ?_⟩
  · simp [openResult_nodeFails _ hn]
  · simp [openResult_modeFails _ hn hm]
  · simp [openResult_speedFails _ hn hm hs]
  · simp [openResult_wordSizeFails _ hn hm hs hw]
  · simp [openResult_succeeds _ hn hm hs hw, State.handle]

/-- Settles O35: after the failed open the link is down, so no run without another open makes a request (O37). -/
theorem openAndCloseMakeNoExchange : Obligations.OpenAndCloseMakeNoExchange := by
  constructor
  · intro s w tr rest hp hl hi hn hm hs hw
    have hlink : (opened w tr { s with inputs := .closeLink :: rest }).link = .configured w.resource :=
      congrArg Prod.fst (openResult_succeeds s.linkConfig hn hm hs hw)
    exact ⟨_, (run_succ_next 1 (step_open hp hl hi)).trans (run_succ_next 0 (step_close hp hlink rfl))⟩
  · intro s w tr rest hp hl hi hn hm hs
    have hlink : (opened w tr { s with inputs := rest }).link = .failed (.configurationFailed .speed) :=
      congrArg Prod.fst (openResult_speedFails s.linkConfig hn hm hs)
    have hstep := step_open hp hl hi
    refine ⟨⟨(openResult w tr s.linkConfig).2, hstep.trans ?_⟩, fun hno k t hrun => ?_⟩
    · rw [← hlink]; rfl
    · rw [run_succ_next k hstep] at hrun
      exact (noExchangeWithoutAnOpen k (opened w tr { s with inputs := rest }) t hp
        (congrArg Link.isConfigured hlink) hno hrun).1

/-- Settles O36: the second close meets a closed link. -/
theorem closeEndsTheLink : Obligations.CloseEndsTheLink := by
  intro s r rest hp hl hi
  refine ⟨_, step_close hp hl hi, rfl, rfl, rfl, ?_⟩
  rintro ⟨more, hmore⟩
  exact step_of_stopCase (.secondClose hp rfl hmore)

/-! ### The registers of the link (O40, O41) -/

/-- Settles O40: of the cases of a step only an open writes the registers, and only where the node opens. -/
theorem onlyAnOpenWritesTheLinkRegisters : Obligations.OnlyAnOpenWritesTheLinkRegisters := by
  intro s t hstep hne
  cases step_cases hstep with
  | stays _ ht | refuses _ _ _ _ _ _ _ ht | accepts _ _ _ _ _ _ _ ht | closes _ _ _ _ ht => exact absurd (ht ▸ rfl) hne
  | completes req ans later _ _ _ _ ht => exact absurd (ht ▸ complete_linkConfig ..) hne
  | opens w tr rest hp hi hl ht =>
    refine ⟨hp, hl, ht ▸ rfl, ht ▸ rfl, w, tr, rest, hi, Bool.of_not_eq_false fun hn => ?_⟩
    exact hne (ht ▸ congrArg Prod.snd (openResult_nodeFails s.linkConfig hn))

/-- The same state with another content of the link's registers. -/
def withLinkConfig (c : LinkConfig) (s : State) : State := { s with linkConfig := c }

theorem mapNext_withLinkConfig (c d : LinkConfig) (r : Result) :
    mapNext (withLinkConfig c) (mapNext (withLinkConfig d) r) = mapNext (withLinkConfig c) r := by cases r <;> rfl

theorem complete_withLinkConfig (c : LinkConfig) (ans : Answer) (s : State) :
    complete ans (withLinkConfig c s) = withLinkConfig c (complete ans s) := by
  rw [complete_eq, complete_eq]
  cases ans.res <;> rfl

/-- A step from other registers ends in the same state but for the registers: an open leaves the ones it does not reach. -/
theorem step_withLinkConfig (c : LinkConfig) (s : State) :
    ∃ d, step (withLinkConfig c s) = mapNext (withLinkConfig d) (step s) := by
  cases hp : s.phase with
  | idle =>
    have hp' : (withLinkConfig c s).phase = .idle := hp
    match hi : s.inputs with
    | [] => exact ⟨c, by rw [step_idle_nil hp hi, step_idle_nil hp' hi]; rfl⟩
    | .command cmd :: rest =>
      refine ⟨c, ?_⟩
      cases hd : decode cmd with
      | reservedBits => rw [step_idle_reserved hp hi hd, step_idle_reserved hp' hi hd]; rfl
      | ok i =>
        rw [step_idle_ok hp hi hd, step_idle_ok hp' hi hd]
        exact exec_mapNext (g := withLinkConfig c) (s := { s with inputs := rest })
          (s' := withLinkConfig c { s with inputs := rest }) rfl rfl (fun _ => rfl) (fun _ _ _ _ => rfl) i
    | .openLink w tr :: rest =>
      refine ⟨(openResult w tr c).2, ?_⟩
      rw [step_idle_open hp hi, step_idle_open hp' hi]
      refine openLink_mapNext rfl ?_
      simp [opened, withLinkConfig, openResult_link_congr w tr c s.linkConfig]
    | .closeLink :: rest =>
      refine ⟨c, ?_⟩
      rw [step_idle_close hp hi, step_idle_close hp' hi]
      exact closeLink_mapNext rfl rfl
  | wait =>
    exact ⟨c, step_wait_mapNext (withLinkConfig c) s hp rfl rfl rfl fun ans later =>
      complete_withLinkConfig c ans { s with answers := later }⟩

/-- The same for a run: the registers stay apart from everything else, however long it is. -/
theorem run_withLinkConfig (k : Nat) : ∀ (c : LinkConfig) (s : State), ∃ d,
    Host.Core.run Sys2Proof.core k (withLinkConfig c s) =
      mapNext (withLinkConfig d) (Host.Core.run Sys2Proof.core k s) := by
  induction k with
  | zero => exact fun c s => ⟨c, rfl⟩
  | succ k ih =>
    intro c s
    obtain ⟨d, hd⟩ := step_withLinkConfig c s
    cases hs : step s with
    | next t =>
      rw [hs] at hd
      rw [run_succ_next k hd, run_succ_next k hs]
      exact ih d t
    | fault f =>
      rw [hs] at hd
      exact ⟨d, by rw [run_succ_fault k hd, run_succ_fault k hs]; rfl⟩
    | refused r =>
      rw [hs] at hd
      exact ⟨d, by rw [run_succ_refused k hd, run_succ_refused k hs]; rfl⟩

/-- Settles O41: the registers of the start stand only in the registers of the end. -/
theorem linkRegistersAreNeverRead : Obligations.LinkRegistersAreNeverRead := by
  intro k s c
  obtain ⟨d, hd⟩ := run_withLinkConfig k c s
  exact (congrArg (mapNext (withLinkConfig c)) hd).trans (mapNext_withLinkConfig ..)

end Sys2Proof.Machine
end

section
/-! PROOFS of the family 70_reset_and_hazards: the answer that never comes. -/

namespace Sys2Proof.Machine

/-- A run from a state that steps to itself ends where it began. -/
theorem run_of_step_self {s : State} (h : step s = .next s) (k : Nat) :
    Host.Core.run Sys2Proof.core k s = .next s := by
  induction k with
  | zero => exact run_zero s
  | succ k ih => rw [run_succ_next k h, ih]

/-- Settles O23: without an answer the state in WAIT steps to itself. -/
theorem withheldAnswerHangsForEver : Obligations.WithheldAnswerHangsForEver :=
  fun k _ hp ha => run_of_step_self (step_wait_withheld hp ha) k

end Sys2Proof.Machine
end
